-- ==== Sys2Proof/Word.lean ====
section
/-! DEFINITION. The word type: the five widths, words, bytes, the physical 128-bit register, the direction
(`00_scope.md` R5, R8, R10; `20_memory.md` R54; `30_encoding.md` R82). -/

namespace Sys2Proof

/-- A byte: 8 bits, unsigned (`20_memory.md` R54). -/
abbrev Byte := BitVec 8

/-- A physical working register or table entry: 128 bits, the widest word (`10_state.md` R22). A word of a
narrower width stands in its low bits with zeros above (notes/assumptions/10.md). -/
abbrev Reg := BitVec 128

/-- The word width w: one of five values and no other (`00_scope.md` R5). -/
inductive Width where
  | w8 | w16 | w32 | w64 | w128
deriving DecidableEq, Repr, Inhabited

/-- w in bits (`00_scope.md` R5). -/
def Width.bits : Width → Nat
  | .w8 => 8
  | .w16 => 16
  | .w32 => 32
  | .w64 => 64
  | .w128 => 128

/-- u = w / 8, the bytes of a word (`00_scope.md` R8). -/
def Width.bytes : Width → Nat
  | .w8 => 1
  | .w16 => 2
  | .w32 => 4
  | .w64 => 8
  | .w128 => 16

/-- `Word w` (`00_scope.md` R10, `40_word_arithmetic.md` R110). -/
abbrev Word (w : Width) := BitVec w.bits

/-- The direction of a command: DIR = 0 is encode, DIR = 1 is decode (`30_encoding.md` R82). -/
inductive Dir where
  | enc | dec
deriving DecidableEq, Repr, Inhabited

end Sys2Proof
end

