-- ==== Sys2Proof/Machine/Working.lean ====
section
/-! DEFINITION. The working state of the engine, which exists only while one command runs: the parameters fixed in
phase DECODE, the working registers, tables and counters, and the ports of the unit operations
(`10_state.md` sections 2 to 4; `30_encoding.md` R97). It stands before Config because a free value of Config has
this type. -/

namespace Sys2Proof.Machine

/-- The five values the decoder produces and that stay fixed until the response (`30_encoding.md` R97). -/
structure Params where
  dir : Dir
  w : Width
  /-- the round count, exactly the 8-bit field R (`00_scope.md` R6) -/
  r : BitVec 8
  /-- the key length in bytes, exactly the 8-bit field KLEN (`00_scope.md` R7) -/
  b : BitVec 8
  /-- the data length in bytes, unbounded (`00_scope.md` R9; notes/assumptions/1.md) -/
  N : Nat
deriving DecidableEq, Repr, Inhabited

/-- The operand and result ports of the unit operations: the MODEL's own fields. The spec gives each unit operation
its operands and its result and no register for either (notes/assumptions/6.md). -/
structure Ports where
  /-- operand a, or x -/
  a : Reg
  /-- operand b -/
  b : Reg
  /-- operand n of a rotation, a natural number of any size (`40_word_arithmetic.md` R115) -/
  amount : Nat
  /-- operand v of W.FROMBYTE (R118) -/
  byte : Byte
  /-- the result of W.TOLE and the operand of W.FROMLE: the first u lanes (R119, R120) -/
  lanes : Vector Byte 16
  /-- operand t of SEQ.TAKE (`41_key_sequence.md` R143) -/
  count : Nat
  /-- the word list W of the codec (`44_block_codec.md` R191, R192, R193) -/
  words : List Reg
  /-- the word result -/
  out : Reg
deriving DecidableEq, Repr, Inhabited

/-- The working state: unspecified after a command and after reset (`10_state.md` R34, R35). -/
structure Working where
  /-- working register A (`10_state.md` R21) -/
  A : Reg
  /-- working register B (`10_state.md` R21) -/
  B : Reg
  /-- the generator's next value to emit (`10_state.md` R24) -/
  G : Reg
  /-- index into S (`10_state.md` R25) -/
  I : BitVec 9
  /-- index into L (`10_state.md` R25) -/
  J : BitVec 8
  /-- the subkey table (`10_state.md` R22) -/
  S : Vector Reg 512
  /-- the key-word array (`10_state.md` R23) -/
  L : Vector Reg 255
  /-- the key byte index (`10_state.md` R26) -/
  KIDX : BitVec 8
  /-- the mixing iteration count (`10_state.md` R26) -/
  MITER : BitVec 11
  /-- the round index (`10_state.md` R26) -/
  RND : BitVec 8
  /-- the block number, LEN_BITS bits (`10_state.md` R26) -/
  BLKN : Nat
  /-- the term index (`10_state.md` R26) -/
  SIDX : BitVec 9
  par : Params
  ports : Ports
deriving DecidableEq, Repr, Inhabited

end Sys2Proof.Machine
end

