-- ==== Sys2Proof/Config.lean ====
section
/-! DEFINITION. What is fixed for the engine, and its free values. The two facade defaults are the assembler's, not
hardware state (`00_scope.md` R3, `10_state.md` R34). LEN_BITS, INPLACE_ALLOWED, ZEROIZE_ON_DONE and PLATFORM_MAP are
the spec's open parameters; no definition reads them (notes/assumptions/1.md, 5.md, 16.md, 17.md). -/

namespace Sys2Proof.Config

/-- The facade's default word width, 32 (`00_scope.md` R3, `30_encoding.md` R94). -/
def defaultWidth : Width := .w32

/-- The facade's default round count, 12 (`00_scope.md` R3, `30_encoding.md` R94). -/
def defaultRounds : Nat := 12

/-- FREE VALUE: the contents of the working state after a command has ended, "any value" (`10_state.md` R35;
`93_implementation_defined.md` U1). The argument is the state's counter of draws (notes/assumptions/5.md). -/
opaque freeWorking : Nat → Machine.Working

/-- FREE VALUE: what CDC.SPLIT's word list holds after its whole words when N is not a multiple of u, a list of any
length: `44_block_codec.md` R191 states no result there. The argument is the counter of draws
(notes/assumptions/22.md). -/
opaque freeWords : Nat → List Reg

/-- FREE VALUE: the last word of CDC.APPLY's result when the number of words is odd: `44_block_codec.md` R193 states no
result there. The argument is the counter of draws (notes/assumptions/23.md). -/
opaque freeWord : Nat → Reg

end Sys2Proof.Config
end

