-- ==== Sys2Proof/Syntax.lean ====
section
/-! DEFINITION. The instructions: one constructor per row of the opcode table (`30_encoding.md` R89, R90). A command
carries the values of its fields R and KLEN and of its LEN word; a unit operation carries none, since format U is a
bare 5-bit code (R80). -/

namespace Sys2Proof

inductive Instr where
  /-- ENC.8: encode a buffer at w = 8 (`44_block_codec.md` R194) -/
  | enc8 (r klen len : Nat)
  /-- DEC.8: decode a buffer at w = 8 (`44_block_codec.md` R195) -/
  | dec8 (r klen len : Nat)
  | enc16 (r klen len : Nat)
  | dec16 (r klen len : Nat)
  | enc32 (r klen len : Nat)
  | dec32 (r klen len : Nat)
  | enc64 (r klen len : Nat)
  | dec64 (r klen len : Nat)
  | enc128 (r klen len : Nat)
  | dec128 (r klen len : Nat)
  /-- W.ADD (`40_word_arithmetic.md` R112) -/
  | wAdd
  /-- W.SUB (R113) -/
  | wSub
  /-- W.XOR (R114) -/
  | wXor
  /-- W.ROTL (R115) -/
  | wRotl
  /-- W.ROTR (R116) -/
  | wRotr
  /-- W.FROMBYTE (R118) -/
  | wFromByte
  /-- W.TOLE (R119) -/
  | wToLe
  /-- W.FROMLE (R120) -/
  | wFromLe
  /-- W.CONSTP (R121) -/
  | wConstP
  /-- W.CONSTQ (R122) -/
  | wConstQ
  /-- SEQ.RESTART (`41_key_sequence.md` R141) -/
  | seqRestart
  /-- SEQ.NEXT (R142) -/
  | seqNext
  /-- SEQ.TAKE (R143) -/
  | seqTake
  /-- KS.EXPAND (`42_key_schedule.md` R150) -/
  | ksExpand
  /-- KS.MIX (R154) -/
  | ksMix
  /-- KS.SCHEDULE (R159) -/
  | ksSchedule
  /-- BLK.ENC (`43_block_round.md` R170) -/
  | blkEnc
  /-- BLK.DEC (R171) -/
  | blkDec
  /-- CDC.VALIDATE (`44_block_codec.md` R190) -/
  | cdcValidate
  /-- CDC.SPLIT (R191) -/
  | cdcSplit
  /-- CDC.JOIN (R192) -/
  | cdcJoin
  /-- CDC.APPLY (R193) -/
  | cdcApply
deriving DecidableEq, Repr, Inhabited

/-- The command of a direction and a width (the ten rows of `30_encoding.md` R89). -/
def Instr.command : Dir → Width → Nat → Nat → Nat → Instr
  | .enc, .w8 => .enc8
  | .dec, .w8 => .dec8
  | .enc, .w16 => .enc16
  | .dec, .w16 => .dec16
  | .enc, .w32 => .enc32
  | .dec, .w32 => .dec32
  | .enc, .w64 => .enc64
  | .dec, .w64 => .dec64
  | .enc, .w128 => .enc128
  | .dec, .w128 => .dec128

end Sys2Proof
end

