-- ==== Sys2Proof/WellFormed.lean ====
section
/-! DEFINITION. Well-formed instructions: r and the key length lie in the ranges their 8-bit fields hold
(`00_scope.md` R6, R7; `30_encoding.md` R84, R85, R93). Every data length is accepted (R87). -/

namespace Sys2Proof

/-- The two checks on a command's operands: `0 <= r <= 255` and `0 <= b <= 255`. -/
def okFields (r klen : Nat) : Bool := decide (r ≤ 255) && decide (klen ≤ 255)

def Instr.wf : Instr → Bool
  | .enc8 r klen _ => okFields r klen
  | .dec8 r klen _ => okFields r klen
  | .enc16 r klen _ => okFields r klen
  | .dec16 r klen _ => okFields r klen
  | .enc32 r klen _ => okFields r klen
  | .dec32 r klen _ => okFields r klen
  | .enc64 r klen _ => okFields r klen
  | .dec64 r klen _ => okFields r klen
  | .enc128 r klen _ => okFields r klen
  | .dec128 r klen _ => okFields r klen
  | .wAdd => true
  | .wSub => true
  | .wXor => true
  | .wRotl => true
  | .wRotr => true
  | .wFromByte => true
  | .wToLe => true
  | .wFromLe => true
  | .wConstP => true
  | .wConstQ => true
  | .seqRestart => true
  | .seqNext => true
  | .seqTake => true
  | .ksExpand => true
  | .ksMix => true
  | .ksSchedule => true
  | .blkEnc => true
  | .blkDec => true
  | .cdcValidate => true
  | .cdcSplit => true
  | .cdcJoin => true
  | .cdcApply => true

/-- An instruction that a code can spell. -/
abbrev Instr.WellFormed (i : Instr) : Prop := i.wf = true

end Sys2Proof
end

