-- ==== Sys2Proof/Decode.lean ====
section
/-! DEFINITION. The decoder, total on every command word and every unit code, and the encoder after it
(`30_encoding.md` R80 to R91, R95 to R97). CMD and LEN are values, not byte sequences, at the spec's level
(`92_eei_decisions.md` D23), so the decoder takes words. -/

namespace Sys2Proof

/-- Why a code is rejected. -/
inductive Reject where
  /-- the command word spells no command (`30_encoding.md` R88, R96; `60_exceptions.md` R221) -/
  | illegalCommand
  /-- a unit code 0x16 to 0x1F (`30_encoding.md` R91) -/
  | reservedUnitCode
deriving DecidableEq, Repr

/-- What a decoder answers. -/
inductive Decoded (α : Type) where
  | ok (x : α)
  | rejected (why : Reject)
deriving DecidableEq, Repr

/-- One instruction as the hardware spells it: format C is the pair of words CMD, LEN; format U is a 5-bit code
(`30_encoding.md` R80). -/
inductive Code where
  | command (cmd : BitVec 32) (len : Nat)
  | unit (uop : BitVec 5)
deriving DecidableEq, Repr

/-- The fields of a legal command word (`30_encoding.md` R97, less N, which is the LEN word). -/
structure Fields where
  dir : Dir
  w : Width
  r : Nat
  b : Nat
deriving DecidableEq, Repr

/-- WSEL selects the width; 5, 6 and 7 select none (`30_encoding.md` R83). -/
def widthOfSel (wsel : BitVec 3) : Option Width :=
  match wsel.toNat with
  | 0 => some .w8
  | 1 => some .w16
  | 2 => some .w32
  | 3 => some .w64
  | 4 => some .w128
  | _ => none

/-- The command word taken apart: R88's test of the reserved bits, then the fields of R97. -/
def decodeFields (cmd : BitVec 32) : Decoded Fields :=
  if cmd.extractLsb' 24 8 ≠ 0 ∨ cmd.extractLsb' 4 4 ≠ 0 then .rejected .illegalCommand
  else
    match widthOfSel (cmd.extractLsb' 1 3) with
    | none => .rejected .illegalCommand
    | some w =>
      .ok { dir := if cmd.extractLsb' 0 1 = 0 then .enc else .dec
            w := w
            r := (cmd.extractLsb' 8 8).toNat
            b := (cmd.extractLsb' 16 8).toNat }

/-- Format C (`30_encoding.md` R88, R89). Every value of LEN is accepted (R87). -/
def decodeCommand (cmd : BitVec 32) (len : Nat) : Decoded Instr :=
  match decodeFields cmd with
  | .rejected e => .rejected e
  | .ok f => .ok (Instr.command f.dir f.w f.r f.b len)

/-- Format U (`30_encoding.md` R90, R91). -/
def decodeUnit (uop : BitVec 5) : Decoded Instr :=
  match uop.toNat with
  | 0x00 => .ok .wAdd
  | 0x01 => .ok .wSub
  | 0x02 => .ok .wXor
  | 0x03 => .ok .wRotl
  | 0x04 => .ok .wRotr
  | 0x05 => .ok .wFromByte
  | 0x06 => .ok .wToLe
  | 0x07 => .ok .wFromLe
  | 0x08 => .ok .wConstP
  | 0x09 => .ok .wConstQ
  | 0x0A => .ok .seqRestart
  | 0x0B => .ok .seqNext
  | 0x0C => .ok .seqTake
  | 0x0D => .ok .ksExpand
  | 0x0E => .ok .ksMix
  | 0x0F => .ok .ksSchedule
  | 0x10 => .ok .blkEnc
  | 0x11 => .ok .blkDec
  | 0x12 => .ok .cdcValidate
  | 0x13 => .ok .cdcSplit
  | 0x14 => .ok .cdcJoin
  | 0x15 => .ok .cdcApply
  | _ => .rejected .reservedUnitCode

/-- The decoder, total on every code. -/
def decode : Code → Decoded Instr
  | .command cmd len => decodeCommand cmd len
  | .unit uop => decodeUnit uop

/-- The field DIR (`30_encoding.md` R81, R82). -/
def dirBit : Dir → BitVec 1
  | .enc => 0
  | .dec => 1

/-- The field WSEL (`30_encoding.md` R83). -/
def selOfWidth : Width → BitVec 3
  | .w8 => 0
  | .w16 => 1
  | .w32 => 2
  | .w64 => 3
  | .w128 => 4

/-- The command word, most significant field first: `00000000 kkkkkkkk rrrrrrrr 0000 www d`
(`30_encoding.md` R81). -/
def commandWord (dir : Dir) (w : Width) (r klen : Nat) : BitVec 32 :=
  0#8 ++ BitVec.ofNat 8 klen ++ BitVec.ofNat 8 r ++ 0#4 ++ selOfWidth w ++ dirBit dir

/-- The encoder: the words of a well-formed instruction. -/
def encode : Instr → Code
  | .enc8 r klen len => .command (commandWord .enc .w8 r klen) len
  | .dec8 r klen len => .command (commandWord .dec .w8 r klen) len
  | .enc16 r klen len => .command (commandWord .enc .w16 r klen) len
  | .dec16 r klen len => .command (commandWord .dec .w16 r klen) len
  | .enc32 r klen len => .command (commandWord .enc .w32 r klen) len
  | .dec32 r klen len => .command (commandWord .dec .w32 r klen) len
  | .enc64 r klen len => .command (commandWord .enc .w64 r klen) len
  | .dec64 r klen len => .command (commandWord .dec .w64 r klen) len
  | .enc128 r klen len => .command (commandWord .enc .w128 r klen) len
  | .dec128 r klen len => .command (commandWord .dec .w128 r klen) len
  | .wAdd => .unit 0x00
  | .wSub => .unit 0x01
  | .wXor => .unit 0x02
  | .wRotl => .unit 0x03
  | .wRotr => .unit 0x04
  | .wFromByte => .unit 0x05
  | .wToLe => .unit 0x06
  | .wFromLe => .unit 0x07
  | .wConstP => .unit 0x08
  | .wConstQ => .unit 0x09
  | .seqRestart => .unit 0x0A
  | .seqNext => .unit 0x0B
  | .seqTake => .unit 0x0C
  | .ksExpand => .unit 0x0D
  | .ksMix => .unit 0x0E
  | .ksSchedule => .unit 0x0F
  | .blkEnc => .unit 0x10
  | .blkDec => .unit 0x11
  | .cdcValidate => .unit 0x12
  | .cdcSplit => .unit 0x13
  | .cdcJoin => .unit 0x14
  | .cdcApply => .unit 0x15

/-- The code that a row of the opcode table has with these bits (notes/assumptions/16.md). A command is CMD, bits
31 to 0, then LEN, the bits from 32 on; a unit operation is a 5-bit code, the low bits of one byte. No code has
another size, and a byte above 0x1F is no 5-bit code. -/
def codeOfTableWord (nbits w : Nat) : Option Code :=
  if 32 ≤ nbits then some (.command (BitVec.ofNat 32 w) (w % 2 ^ nbits / 2 ^ 32))
  else if nbits ≤ 8 ∧ w % 2 ^ nbits < 32 then some (.unit (BitVec.ofNat 5 w))
  else none

/-- The instruction this decoder reads from a row of the opcode table. -/
def decodeTableWord (nbits w : Nat) : Option Instr :=
  match codeOfTableWord nbits w with
  | none => none
  | some c =>
    match decode c with
    | .ok i => some i
    | .rejected _ => none

end Sys2Proof
end

