-- ==== Sys2Proof/Machine/State.lean ====
section
/-! DEFINITION. The state of the engine as plain data, its reset value, and the reasons a step can stop
(`10_state.md`; `20_memory.md` section 1; `70_reset_and_hazards.md` R250). -/

namespace Sys2Proof.Machine

/-- The phase register PH (`10_state.md` R27). -/
inductive Phase where
  | idle | decode | validate | expand | mix | blocks | respond
deriving DecidableEq, Repr, Inhabited

/-- The status of a response; the code 3 is never produced (`10_state.md` R30, `93_implementation_defined.md` U7). -/
inductive Status where
  | ok | wrongInputSize | illegalCmd
deriving DecidableEq, Repr, Inhabited

/-- The three byte buffers of the host (`20_memory.md` R50). -/
inductive Space where
  | key | din | dout
deriving DecidableEq, Repr, Inhabited

/-- The request registers CMD and LEN, which hold a value only from a request on (`10_state.md` R29, R34). -/
structure Request where
  cmd : BitVec 32
  len : Nat
deriving DecidableEq, Repr, Inhabited

/-- A response: the status code and, with OK only, the output bytes (`30_encoding.md` R92). -/
structure Response where
  status : Status
  out : List Byte
deriving DecidableEq, Repr, Inhabited

/-- A byte buffer, in canonical form: addresses strictly rising. An unlisted address holds no byte
(notes/assumptions/8.md). -/
abbrev Memory := List Host.Cell

/-- The canonical form of a buffer. -/
abbrev Memory.wf (m : Memory) : Prop := m.Pairwise (fun x y => x.1 < y.1)

structure State where
  /-- CMD and LEN, while a request waits (`10_state.md` R29) -/
  req : Option Request
  /-- STATUS and the output bytes, once a response is produced (`10_state.md` R30) -/
  resp : Option Response
  /-- the phase register PH (`10_state.md` R27) -/
  phase : Phase
  /-- MODEL's own: the status that RESPOND will report (notes/assumptions/12.md) -/
  outcome : Status
  /-- the unit-operation select code UOP (`30_encoding.md` R80, R90; notes/assumptions/7.md) -/
  usel : Option (BitVec 5)
  work : Working
  key : Memory
  din : Memory
  dout : Memory
  /-- MODEL's own: how many free values have been drawn (notes/assumptions/5.md, 22.md, 23.md) -/
  draws : Nat
deriving DecidableEq, Repr

/-- Why the machine stops. Each is safe: the model stops where the spec gives no behaviour. -/
inductive Fault where
  /-- A byte that the host has not supplied (KEY, DIN), or that nothing has written (DOUT), is read. Raised by
  KS.EXPAND, KS.SCHEDULE, CDC.SPLIT, the commands and phase RESPOND, when the host breaks `70_reset_and_hazards.md`
  R253 (a). Safe (notes/assumptions/8.md). -/
  | byteAbsent (sp : Space)
  /-- CDC.JOIN is given more words than DOUT has bytes for: DOUT ends at N-1 (`20_memory.md` R53). Raised by CDC.JOIN
  only, never inside a command. Safe (notes/assumptions/13.md). -/
  | noSuchAddress (sp : Space)
  /-- SEQ.TAKE is given a count above 512: S has 512 entries (`10_state.md` R22). Raised by SEQ.TAKE only, never inside
  a command. Safe (notes/assumptions/13.md). -/
  | noSuchEntry
  /-- Phase DECODE with no request, which no run reaches (`10_state.md` R28). Raised by the sequencer. Safe
  (notes/assumptions/2.md). -/
  | noRequest
deriving DecidableEq, Repr

/-- Why the machine gives no meaning. -/
inductive Refusal where
  /-- An instruction whose meaning is not written yet. Raised by exec. Safe. -/
  | notModelled (mnemonic : String)
  /-- A unit code 0x16 to 0x1F: "no behaviour is defined or needed for them" (`30_encoding.md` R91). Raised by step.
  Safe. -/
  | reservedUnitCode
deriving DecidableEq, Repr

/-- What a step answers. -/
abbrev Result := Host.Outcome State Fault Refusal

/-- The parameters at reset: values this model names, the spec gives none (notes/assumptions/4.md). -/
def Params.reset : Params := { dir := .enc, w := .w8, r := 0, b := 0, N := 0 }

/-- The ports at reset (notes/assumptions/6.md). -/
def Ports.reset : Ports :=
  { a := 0, b := 0, amount := 0, byte := 0, lanes := Vector.replicate 16 0, count := 0, words := [], out := 0 }

/-- The working state at reset: values this model names, the spec gives none (`10_state.md` R34;
notes/assumptions/4.md). -/
def Working.reset : Working :=
  { A := 0, B := 0, G := 0, I := 0, J := 0, S := Vector.replicate 512 0, L := Vector.replicate 255 0
    KIDX := 0, MITER := 0, RND := 0, BLKN := 0, SIDX := 0, par := Params.reset, ports := Ports.reset }

/-- The machine right after reset: phase IDLE, no request accepted, no response pending
(`10_state.md` R34, `70_reset_and_hazards.md` R250). -/
def State.reset : State :=
  { req := none, resp := none, phase := .idle, outcome := .ok, usel := none, work := Working.reset
    key := [], din := [], dout := [], draws := 0 }

end Sys2Proof.Machine
end

