-- ==== Sys2Proof/Machine/Ops.lean ====
section
/-! DEFINITION. The named operations that meanings share: reading and writing the byte buffers
(`20_memory.md` R56, R57), reading and overlaying a table, sequencing of results, raising a status
(the engine's one way of taking an exception, `60_exceptions.md` R220, R221, R224), responding (the return to
idle beside it, R226; `10_state.md` R28 phase RESPOND), and the host's request. -/

namespace Sys2Proof.Machine

/-- The byte at an address; none where no byte has been supplied or written. -/
def Memory.read : Memory → Nat → Option Byte
  | [], _ => none
  | (b, v) :: m, a => if a = b then some v else Memory.read m a

/-- Write one byte, keeping the canonical form. -/
def Memory.write : Memory → Nat → Byte → Memory
  | [], a, v => [(a, v)]
  | (b, x) :: m, a, v =>
    if a < b then (a, v) :: (b, x) :: m
    else if a = b then (a, v) :: m
    else (b, x) :: Memory.write m a v

/-- `MemRead(space, addr, n)`: the n bytes from addr on (`20_memory.md` R56). -/
def Memory.readN (m : Memory) : Nat → Nat → Option (List Byte)
  | _, 0 => some []
  | a, n + 1 =>
    match Memory.read m a, Memory.readN m (a + 1) n with
    | some v, some vs => some (v :: vs)
    | _, _ => none

/-- `MemWrite(DOUT, addr, n, bs)` with n the length of bs (`20_memory.md` R57). -/
def Memory.writeN : Memory → Nat → List Byte → Memory
  | m, _, [] => m
  | m, a, v :: vs => Memory.writeN (Memory.write m a v) (a + 1) vs

/-- The buffer that holds the bytes from address a on and nothing else. -/
def Memory.ofBytes : Nat → List Byte → Memory
  | _, [] => []
  | a, v :: vs => (a, v) :: Memory.ofBytes (a + 1) vs

/-- The first entries of a table or of the lanes replaced by a list, the others as they were. -/
def overlay {α : Type} {k : Nat} (v : Vector α k) (xs : List α) : Vector α k :=
  ⟨⟨(xs ++ v.toList.drop xs.length).take k⟩, by simp; omega⟩

/-- Go on with the next state; stop where the first part stopped. -/
def andThen (o : Result) (f : State → Result) : Result :=
  match o with
  | .next s => f s
  | .fault e => .fault e
  | .refused e => .refused e

/-- TAKING THE EXCEPTION. What a failure or a refusal does: the status is noted and the sequencer goes straight to
phase RESPOND; nothing is saved and nothing else changes (`60_exceptions.md` R224; `00_scope.md` R11 `raise`,
`refuse`). -/
def raise (c : Status) (s : State) : State := { s with outcome := c, phase := .respond }

/-- One more free value has been drawn. -/
def State.draw (s : State) : State := { s with draws := s.draws + 1 }

/-- The end of a command: the engine is idle (`60_exceptions.md` R226) and the working state is unspecified, a free
value (`10_state.md` R35; notes/assumptions/5.md). -/
def State.release (s : State) : State :=
  { s.draw with phase := .idle, work := Config.freeWorking s.draws }

/-- The response that carries a status alone: no output bytes (`30_encoding.md` R92, `20_memory.md` R53). -/
def State.failWith (c : Status) (s : State) : State := { s.release with resp := some { status := c, out := [] } }

/-- Phase RESPOND: the status and, on OK only, the N output bytes; then idle (`10_state.md` R28, `30_encoding.md`
R92). -/
def respond (s : State) : Result :=
  match s.outcome with
  | .ok =>
    match s.dout.readN 0 s.work.par.N with
    | some bs => .next { s.release with resp := some { status := .ok, out := bs } }
    | none => .fault (.byteAbsent .dout)
  | .wrongInputSize => .next (s.failWith .wrongInputSize)
  | .illegalCmd => .next (s.failWith .illegalCmd)

/-- The end of phase DECODE for a legal command: the parameters are fixed for the rest of the command, and the
sequencer is in VALIDATE (`10_state.md` R28, `30_encoding.md` R97). STATUS describes only the command it answers
(R30), so no earlier response is left. -/
def start (p : Params) (s : State) : State :=
  { s with resp := none, outcome := .ok, phase := .validate, work := { s.work with par := p } }

/-- CMD and LEN are read once, in DECODE; the request is then taken (`10_state.md` R29, `20_memory.md` R66;
notes/assumptions/11.md). -/
def State.takeRequest (s : State) : State := { s with req := none }

/-- A command word that spells no command: refused with ILLEGAL_CMD, nothing else is looked at
(`60_exceptions.md` R221, R224). -/
def refuseCommand (s : State) : Result := respond (raise .illegalCmd s)

/-- The state that holds a request with its key bytes and data bytes. -/
def State.withRequest (q : Request) (key data : List Byte) (s : State) : State :=
  { s with req := some q, key := Memory.ofBytes 0 key, din := Memory.ofBytes 0 data }

/-- The host's one move: it presents a request, with its key bytes and data bytes (`00_scope.md` R13,
`70_reset_and_hazards.md` R253 (a)). It has the move only when no request waits and no command runs: a host that changes
CMD, LEN, KEY or DIN before the response, or asks a second time, has none (R253 (b), R259; notes/assumptions/15.md).
DESIGN CHOICE: the spec gives the three buffers for one command (`20_memory.md` R50) and does not say what becomes of
them; here KEY and DIN stay until the next request replaces them, and DOUT keeps every byte that no later command writes
(notes/assumptions/21.md). -/
def present (q : Request) (key data : List Byte) (s : State) : Option State :=
  if s.req = none ∧ s.phase = .idle then some (s.withRequest q key data) else none

end Sys2Proof.Machine
end

