-- ==== Sys2Proof/Machine/Operands.lean ====
section
/-! DEFINITION. Operands: the derived parameters u, t, c (`00_scope.md` R8), words held in physical registers, the
first words of a table, the ports of the unit operations. -/

namespace Sys2Proof.Machine

/-- c = max(1, ceil(b / u)), the number of key words (`00_scope.md` R8). -/
def keyWords (u b : Nat) : Nat := max 1 ((b + u - 1) / u)

/-- t = 2 * (r + 1), the length of the subkey table (`00_scope.md` R8). -/
def tableLen (r : Nat) : Nat := 2 * (r + 1)

/-- w of the running command. -/
abbrev Params.bits (p : Params) : Nat := p.w.bits

/-- u of the running command. -/
abbrev Params.u (p : Params) : Nat := p.w.bytes

/-- t of the running command. -/
abbrev Params.t (p : Params) : Nat := tableLen p.r.toNat

/-- c of the running command. -/
abbrev Params.c (p : Params) : Nat := keyWords p.w.bytes p.b.toNat

/-- The parameters of a command (`30_encoding.md` R97); r and the key length are 8-bit fields. -/
def Params.ofCommand (dir : Dir) (w : Width) (r klen len : Nat) : Params :=
  { dir := dir, w := w, r := BitVec.ofNat 8 r, b := BitVec.ofNat 8 klen, N := len }

/-- The word of width w that a physical register holds (notes/assumptions/10.md). -/
def toWord (w : Nat) (x : Reg) : BitVec w := x.setWidth w

/-- A word in a physical register, zeros above (notes/assumptions/10.md). -/
def toReg {w : Nat} (x : BitVec w) : Reg := x.setWidth 128

/-- A register as an operation of width w leaves it: the word it holds, zeros above (notes/assumptions/10.md). -/
def trim (w : Nat) (x : Reg) : Reg := toReg (toWord w x)

/-- The first n words of a table. -/
def readWords {k : Nat} (w n : Nat) (v : Vector Reg k) : List (BitVec w) := (v.toList.take n).map (toWord w)

/-- A table with its first words replaced; entries from there on are not written (`10_state.md` R22). -/
def writeWords {w k : Nat} (v : Vector Reg k) (ws : List (BitVec w)) : Vector Reg k := overlay v (ws.map toReg)

/-- Operand a, or x, of a word operation. -/
def Working.opA (wk : Working) : BitVec wk.par.bits := toWord wk.par.bits wk.ports.a

/-- Operand b of a word operation. -/
def Working.opB (wk : Working) : BitVec wk.par.bits := toWord wk.par.bits wk.ports.b

/-- The result of a word operation. -/
def Working.setOut {w : Nat} (wk : Working) (x : BitVec w) : Working :=
  { wk with ports := { wk.ports with out := toReg x } }

/-- The byte lanes of W.TOLE's result. -/
def Working.setLanes (wk : Working) (bs : List Byte) : Working :=
  { wk with ports := { wk.ports with lanes := overlay wk.ports.lanes bs } }

/-- The codec's word list. -/
def Working.setWords (wk : Working) (ws : List Reg) : Working := { wk with ports := { wk.ports with words := ws } }

/-- A change of the working state alone. -/
def State.onWork (s : State) (f : Working → Working) : State := { s with work := f s.work }

end Sys2Proof.Machine
end

