-- ==== Sys2Proof/Machine/Flags.lean ====
section
/-! DEFINITION. The engine has no flags and no condition codes (`10_state.md` R31): the only condition it computes is
whether the data length is acceptable, and the only condition it reports is the status code. -/

namespace Sys2Proof.Machine

/-- The two tests of CDC.VALIDATE: a whole number of words, and an even number of them
(`44_block_codec.md` R190, `20_memory.md` R59). -/
def validLength (w : Width) (N : Nat) : Bool := decide (N % w.bytes = 0) && decide (N / w.bytes % 2 = 0)

/-- The 2-bit code of a status (`10_state.md` R30, `30_encoding.md` R92). -/
def Status.code : Status → BitVec 2
  | .ok => 0
  | .wrongInputSize => 1
  | .illegalCmd => 2

end Sys2Proof.Machine
end

