-- ==== Sys2Proof/Machine/WordUnit.lean ====
section
/-! DEFINITION. The word-arithmetic unit (`40_word_arithmetic.md`): its ten operations as functions on words, and the
meanings of the ten W rows. No operation writes a flag or can fail (R111). -/

namespace Sys2Proof.Machine

/-- `add_w` (R112). -/
def addW {w : Nat} (a b : BitVec w) : BitVec w := a + b

/-- `sub_w` (R113). -/
def subW {w : Nat} (a b : BitVec w) : BitVec w := a - b

/-- `xor_w` (R114). -/
def xorW {w : Nat} (a b : BitVec w) : BitVec w := a ^^^ b

/-- `rotl_w`: the amount is any natural, reduced mod w (R115). -/
def rotl {w : Nat} (x : BitVec w) (n : Nat) : BitVec w := x.rotateLeft n

/-- `rotr_w`: the amount is any natural, reduced mod w (R116). -/
def rotr {w : Nat} (x : BitVec w) (n : Nat) : BitVec w := x.rotateRight n

/-- `val(x)`, a word as a rotation amount (R117). -/
def val {w : Nat} (x : BitVec w) : Nat := x.toNat

/-- `frombyte_w`: a byte is unsigned (R118). -/
def fromByte (w : Nat) (v : Byte) : BitVec w := v.setWidth w

/-- `tole_w`: byte number i is bits 8i+7 to 8i (R119). -/
def toLE {w : Nat} (u : Nat) (x : BitVec w) : List Byte := (List.range u).map fun i => x.extractLsb' (8 * i) 8

/-- The natural number that bytes stand for, the first the least significant (R120). -/
def leNat : List Byte → Nat
  | [] => 0
  | v :: vs => v.toNat + 256 * leNat vs

/-- `fromle_w` (R120). -/
def fromLE (w : Nat) (bs : List Byte) : BitVec w := BitVec.ofNat w (leNat bs)

/-- P_w (R121, table). -/
def constP : (w : Width) → Word w
  | .w8 => 0xb7#8
  | .w16 => 0xb7e1#16
  | .w32 => 0xb7e15163#32
  | .w64 => 0xb7e151628aed2a6b#64
  | .w128 => 0xb7e151628aed2a6abf7158809cf4f3c7#128

/-- Q_w (R122, table). -/
def constQ : (w : Width) → Word w
  | .w8 => 0x9f#8
  | .w16 => 0x9e37#16
  | .w32 => 0x9e3779b9#32
  | .w64 => 0x9e3779b97f4a7c15#64
  | .w128 => 0x9e3779b97f4a7c15f39cc0605cedc835#128

/-- W.ADD (R112). -/
def execWAdd (s : State) : Result := .next (s.onWork fun wk => wk.setOut (addW wk.opA wk.opB))

/-- W.SUB (R113). -/
def execWSub (s : State) : Result := .next (s.onWork fun wk => wk.setOut (subW wk.opA wk.opB))

/-- W.XOR (R114). -/
def execWXor (s : State) : Result := .next (s.onWork fun wk => wk.setOut (xorW wk.opA wk.opB))

/-- W.ROTL (R115). -/
def execWRotl (s : State) : Result := .next (s.onWork fun wk => wk.setOut (rotl wk.opA wk.ports.amount))

/-- W.ROTR (R116). -/
def execWRotr (s : State) : Result := .next (s.onWork fun wk => wk.setOut (rotr wk.opA wk.ports.amount))

/-- W.FROMBYTE (R118). -/
def execWFromByte (s : State) : Result :=
  .next (s.onWork fun wk => wk.setOut (fromByte wk.par.bits wk.ports.byte))

/-- W.TOLE (R119). -/
def execWToLe (s : State) : Result := .next (s.onWork fun wk => wk.setLanes (toLE wk.par.u wk.opA))

/-- W.FROMLE, on the first u lanes (R120). -/
def execWFromLe (s : State) : Result :=
  .next (s.onWork fun wk => wk.setOut (fromLE wk.par.bits (wk.ports.lanes.toList.take wk.par.u)))

/-- W.CONSTP (R121). -/
def execWConstP (s : State) : Result := .next (s.onWork fun wk => wk.setOut (constP wk.par.w))

/-- W.CONSTQ (R122). -/
def execWConstQ (s : State) : Result := .next (s.onWork fun wk => wk.setOut (constQ wk.par.w))

end Sys2Proof.Machine
end

