-- ==== Sys2Proof/Machine/KeySequence.lean ====
section
/-! DEFINITION. The pseudo-random key sequence generator (`41_key_sequence.md`). -/

namespace Sys2Proof.Machine

/-- `Seq_w(i)` (R140). -/
def seqTerm (w : Width) : Nat → Word w
  | 0 => constP w
  | i + 1 => addW (seqTerm w i) (constQ w)

/-- The words that n uses of SEQ.NEXT emit when the generator holds g (R142). -/
def seqFrom (w : Width) (g : Word w) : Nat → List (Word w)
  | 0 => []
  | n + 1 => g :: seqFrom w (addW g (constQ w)) n

/-- The first t terms (R143). -/
def seqList (w : Width) (t : Nat) : List (Word w) := seqFrom w (constP w) t

/-- `G <- P_w` (R141). -/
def Working.seqRestart (wk : Working) : Working := { wk with G := toReg (constP wk.par.w) }

/-- Emit G and add Q_w to it (R142). -/
def Working.seqNext (wk : Working) : Working :=
  let v : Word wk.par.w := toWord wk.par.bits wk.G
  { wk.setOut v with G := toReg (addW v (constQ wk.par.w)) }

/-- RESTART, then t times NEXT into S[0], S[1], … (R143). SIDX keeps the last value it took
(notes/assumptions/9.md). -/
def Working.seqTake (t : Nat) (wk : Working) : Working :=
  { wk with
    G := toReg (seqTerm wk.par.w t)
    S := writeWords wk.S (seqList wk.par.w t)
    SIDX := if t = 0 then wk.SIDX else BitVec.ofNat 9 (t - 1) }

/-- SEQ.RESTART (R141). -/
def execSeqRestart (s : State) : Result := .next (s.onWork Working.seqRestart)

/-- SEQ.NEXT (R142). -/
def execSeqNext (s : State) : Result := .next (s.onWork Working.seqNext)

/-- SEQ.TAKE of the count at the port; S has 512 entries (R143; notes/assumptions/13.md). -/
def execSeqTake (s : State) : Result :=
  if s.work.ports.count ≤ 512 then .next (s.onWork (Working.seqTake s.work.ports.count)) else .fault .noSuchEntry

end Sys2Proof.Machine
end

