-- ==== Sys2Proof/Machine/KeySchedule.lean ====
section
/-! DEFINITION. The key schedule: expansion and mixing (`42_key_schedule.md`). -/

namespace Sys2Proof.Machine

/-- One key byte into its word slot: `L[k] <- add_w(rotl_w(L[k], 8), frombyte_w(v))` with k = KIDX / u (R150). -/
def expandStep {w : Nat} (u : Nat) (kidx : Nat) (v : Byte) (L : List (BitVec w)) : List (BitVec w) :=
  L.modify (kidx / u) fun x => addW (rotl x 8) (fromByte w v)

/-- KIDX from n - 1 down to 0 (R150, R151). -/
def expandLoop {w : Nat} (u : Nat) (key : List Byte) : Nat → List (BitVec w) → List (BitVec w)
  | 0, L => L
  | n + 1, L => expandLoop u key n (expandStep u n (key.getD n 0) L)

/-- The c key words, all 0 before the loop (R150). -/
def expandKey (w : Width) (key : List Byte) : List (Word w) :=
  expandLoop w.bytes key key.length (List.replicate (keyWords w.bytes key.length) 0)

/-- What a mixing iteration reads and writes (R154). -/
structure Mix (w : Nat) where
  A : BitVec w
  B : BitVec w
  I : Nat
  J : Nat
  S : List (BitVec w)
  L : List (BitVec w)

/-- One mixing iteration, the four assignments and the two index updates in the order written (R154, R156). -/
def mixStep {w : Nat} (t c : Nat) (m : Mix w) : Mix w :=
  let A := rotl (addW (addW (m.S.getD m.I 0) m.A) m.B) 3
  let B := rotl (addW (addW (m.L.getD m.J 0) A) m.B) (val (addW A m.B))
  { A := A, B := B, I := (m.I + 1) % t, J := (m.J + 1) % c, S := m.S.set m.I A, L := m.L.set m.J B }

/-- n mixing iterations. -/
def mixLoop {w : Nat} (t c : Nat) : Nat → Mix w → Mix w
  | 0, m => m
  | n + 1, m => mixLoop t c n (mixStep t c m)

/-- 3 * max(t, c), the iteration count (R155). -/
def mixCount (t c : Nat) : Nat := 3 * max t c

/-- The whole mixing of a table and key words: A = B = 0, I = J = 0 (R154). -/
def mixAll {w : Nat} (t c : Nat) (S L : List (BitVec w)) : Mix w :=
  mixLoop t c (mixCount t c) { A := 0, B := 0, I := 0, J := 0, S := S, L := L }

/-- The subkey table as a function of (w, r, key bytes) and of nothing else (R159). -/
def subkeys (w : Width) (r : Nat) (key : List Byte) : List (Word w) :=
  (mixAll (tableLen r) (keyWords w.bytes key.length) (seqList w (tableLen r)) (expandKey w key)).S

/-- KS.EXPAND on the key bytes read (R150). KIDX keeps the last value it took, 0; with no key byte it takes none
(notes/assumptions/9.md). -/
def Working.expand (key : List Byte) (wk : Working) : Working :=
  { wk with
    L := writeWords wk.L (expandKey wk.par.w key)
    KIDX := if key.length = 0 then wk.KIDX else 0 }

/-- The mixing loop over the tables S and L (R154). MITER keeps the last value it took (notes/assumptions/9.md). -/
def Working.mixTables (wk : Working) : Working :=
  let m := mixAll wk.par.t wk.par.c (readWords wk.par.bits wk.par.t wk.S) (readWords wk.par.bits wk.par.c wk.L)
  { wk with
    A := toReg m.A
    B := toReg m.B
    I := BitVec.ofNat 9 m.I
    J := BitVec.ofNat 8 m.J
    S := writeWords wk.S m.S
    L := writeWords wk.L m.L
    MITER := BitVec.ofNat 11 (mixCount wk.par.t wk.par.c - 1) }

/-- KS.MIX: SEQ.TAKE(t), then the mixing loop (R154). -/
def Working.mix (wk : Working) : Working := (wk.seqTake wk.par.t).mixTables

/-- The b key bytes of the running command (`20_memory.md` R51). -/
def State.keyBytes (s : State) : Option (List Byte) := s.key.readN 0 s.work.par.b.toNat

/-- KS.EXPAND (R150). -/
def execKsExpand (s : State) : Result :=
  match s.keyBytes with
  | some key => .next (s.onWork (Working.expand key))
  | none => .fault (.byteAbsent .key)

/-- KS.MIX (R154). -/
def execKsMix (s : State) : Result := .next (s.onWork Working.mix)

/-- KS.SCHEDULE = KS.MIX of KS.EXPAND (R159). -/
def execKsSchedule (s : State) : Result := andThen (execKsExpand s) execKsMix

end Sys2Proof.Machine
end

