-- ==== Sys2Proof/Machine/BlockRound.lean ====
section
/-! DEFINITION. The block round function, encode and decode (`43_block_round.md`). -/

namespace Sys2Proof.Machine

/-- A block: the pair (A, B). -/
abbrev Block (w : Nat) := BitVec w × BitVec w

/-- Entry i of the subkey table; no index outside the table is formed (R174). -/
def subkey {w : Nat} (S : List (BitVec w)) (i : Nat) : BitVec w := S.getD i 0

/-- Round `rnd` of encode: the A line, then the B line with the A it produced (R170, R175). -/
def encRound {w : Nat} (S : List (BitVec w)) (rnd : Nat) (ab : Block w) : Block w :=
  let A := addW (rotl (xorW ab.1 ab.2) (val ab.2)) (subkey S (2 * rnd))
  let B := addW (rotl (xorW ab.2 A) (val A)) (subkey S (2 * rnd + 1))
  (A, B)

/-- Rounds 1 to n in order. -/
def encRounds {w : Nat} (S : List (BitVec w)) : Nat → Block w → Block w
  | 0, ab => ab
  | n + 1, ab => encRound S (n + 1) (encRounds S n ab)

/-- BLK.ENC as a function of (r, S, A, B) (R170). -/
def encBlock {w : Nat} (r : Nat) (S : List (BitVec w)) (ab : Block w) : Block w :=
  encRounds S r (addW ab.1 (subkey S 0), addW ab.2 (subkey S 1))

/-- Round `rnd` of decode: the B line, then the A line with the B it produced (R171, R175). -/
def decRound {w : Nat} (S : List (BitVec w)) (rnd : Nat) (ab : Block w) : Block w :=
  let B := xorW (rotr (subW ab.2 (subkey S (2 * rnd + 1))) (val ab.1)) ab.1
  let A := xorW (rotr (subW ab.1 (subkey S (2 * rnd))) (val B)) B
  (A, B)

/-- Rounds n down to 1. -/
def decRounds {w : Nat} (S : List (BitVec w)) : Nat → Block w → Block w
  | 0, ab => ab
  | n + 1, ab => decRounds S n (decRound S (n + 1) ab)

/-- BLK.DEC as a function of (r, S, A, B) (R171). -/
def decBlock {w : Nat} (r : Nat) (S : List (BitVec w)) (ab : Block w) : Block w :=
  let ab' := decRounds S r ab
  (subW ab'.1 (subkey S 0), subW ab'.2 (subkey S 1))

/-- The block function of a direction (`30_encoding.md` R82). -/
def blockFn {w : Nat} (dir : Dir) (r : Nat) (S : List (BitVec w)) : Block w → Block w :=
  match dir with
  | .enc => encBlock r S
  | .dec => decBlock r S

/-- The table the block operations read: S[0] to S[t-1]. -/
def Working.table (wk : Working) : List (BitVec wk.par.bits) := readWords wk.par.bits wk.par.t wk.S

/-- The block in the working registers. -/
def Working.block (wk : Working) : Block wk.par.bits := (toWord wk.par.bits wk.A, toWord wk.par.bits wk.B)

/-- BLK.ENC on the working registers. RND keeps the last value it took, r (notes/assumptions/9.md). -/
def Working.blkEnc (wk : Working) : Working :=
  let ab := encBlock wk.par.r.toNat wk.table wk.block
  { wk with A := toReg ab.1, B := toReg ab.2, RND := if wk.par.r = 0 then wk.RND else wk.par.r }

/-- BLK.DEC on the working registers. RND keeps the last value it took, 1 (notes/assumptions/9.md). -/
def Working.blkDec (wk : Working) : Working :=
  let ab := decBlock wk.par.r.toNat wk.table wk.block
  { wk with A := toReg ab.1, B := toReg ab.2, RND := if wk.par.r = 0 then wk.RND else 1 }

/-- BLK.ENC or BLK.DEC by the direction of the command (`30_encoding.md` R82; notes/assumptions/18.md). -/
def Working.blk (wk : Working) : Working :=
  match wk.par.dir with
  | .enc => wk.blkEnc
  | .dec => wk.blkDec

/-- BLK.ENC (R170). -/
def execBlkEnc (s : State) : Result := .next (s.onWork Working.blkEnc)

/-- BLK.DEC (R171). -/
def execBlkDec (s : State) : Result := .next (s.onWork Working.blkDec)

end Sys2Proof.Machine
end

