-- ==== Sys2Proof/Machine/Codec.lean ====
section
/-! DEFINITION. The block codec: validate, split, join, apply (`44_block_codec.md` section 1). -/

namespace Sys2Proof.Machine

/-- The words of a byte list, u bytes each: k words (R191). -/
def splitWords (w : Width) : Nat → List Byte → List (Word w)
  | 0, _ => []
  | k + 1, bs => fromLE w.bits (bs.take w.bytes) :: splitWords w k (bs.drop w.bytes)

/-- The bytes of a word list in order (R192). -/
def joinWords (w : Width) (ws : List (Word w)) : List Byte := ws.flatMap (toLE w.bytes)

/-- A block function on consecutive pairs, each alone (R193). The operation is defined on lists of even length. -/
def applyPairs {w : Nat} (F : Block w → Block w) : List (BitVec w) → List (BitVec w)
  | a :: b :: ws => (F (a, b)).1 :: (F (a, b)).2 :: applyPairs F ws
  | _ => []

/-- k words of DIN from an address on: `fromle_w(MemRead(DIN, addr, u))` each (R191, `20_memory.md` R56, R58). -/
def loadWords (w : Width) (m : Memory) : Nat → Nat → Option (List (Word w))
  | _, 0 => some []
  | a, k + 1 =>
    match m.readN a w.bytes, loadWords w m (a + w.bytes) k with
    | some bs, some ws => some (fromLE w.bits bs :: ws)
    | _, _ => none

/-- Words into DOUT from an address on: `MemWrite(DOUT, addr, u, tole_w(x))` each (R192, `20_memory.md` R57). -/
def storeWords (w : Width) : Memory → Nat → List (Word w) → Memory
  | m, _, [] => m
  | m, a, x :: xs => storeWords w (m.writeN a (toLE w.bytes x)) (a + w.bytes) xs

/-- CDC.APPLY with the block function an operand that works on the registers A and B: for BLKN = m, m + 1, …, load A
and B, apply, store (R193). -/
def applyLoop (F : Working → Working) : Nat → List Reg → Working → List Reg × Working
  | m, a :: b :: ws, wk =>
    let wk₁ := F { wk with A := a, B := b, BLKN := m }
    let rest := applyLoop F (m + 1) ws wk₁
    (wk₁.A :: wk₁.B :: rest.1, rest.2)
  | _, _, wk => ([], wk)

/-- CDC.APPLY on the word list of the ports. -/
def Working.apply (F : Working → Working) (wk : Working) : Working :=
  let r := applyLoop F 0 wk.ports.words wk
  r.2.setWords r.1

/-- CDC.VALIDATE: ok, or the failure WrongInputSize (R190). -/
def execCdcValidate (s : State) : Result :=
  if validLength s.work.par.w s.work.par.N then .next s else .next (raise .wrongInputSize s)

/-- CDC.SPLIT: the N / u words of DIN (R191). Where N is not a multiple of u, R191 states no result: the whole words
are as its pseudocode gives them and what follows them is a free value (DESIGN CHOICE, notes/assumptions/22.md). -/
def execCdcSplit (s : State) : Result :=
  let p := s.work.par
  match loadWords p.w s.din 0 (p.N / p.u) with
  | some ws =>
    if p.N % p.u = 0 then .next (s.onWork fun wk => wk.setWords (ws.map toReg))
    else .next (s.draw.onWork fun wk => wk.setWords (ws.map toReg ++ (Config.freeWords s.draws).map (trim p.bits)))
  | none => .fault (.byteAbsent .din)

/-- CDC.JOIN: the words into DOUT, which ends at N-1 (R192; notes/assumptions/13.md). -/
def execCdcJoin (s : State) : Result :=
  let p := s.work.par
  if s.work.ports.words.length * p.u ≤ p.N then
    .next { s with dout := storeWords p.w s.dout 0 (s.work.ports.words.map (toWord p.bits)) }
  else .fault (.noSuchAddress .dout)

/-- CDC.APPLY with F = BLK.ENC or BLK.DEC, the engine's only uses (R193; notes/assumptions/18.md). On an odd number of
words R193 states no result: the whole pairs are as its pseudocode gives them and the last word is a free value (DESIGN
CHOICE, notes/assumptions/23.md). -/
def execCdcApply (s : State) : Result :=
  if s.work.ports.words.length % 2 = 0 then .next (s.onWork (Working.apply Working.blk))
  else .next (s.draw.onWork fun wk =>
    let wk' := Working.apply Working.blk wk
    wk'.setWords (wk'.ports.words ++ [trim wk.par.bits (Config.freeWord s.draws)]))

end Sys2Proof.Machine
end

