-- ==== Sys2Proof/Machine/Commands.lean ====
section
/-! DEFINITION. The ten host commands (`44_block_codec.md` R194, R195), built from the unit operations. -/

namespace Sys2Proof.Machine

/-- After a validation that passed: the schedule once, then split, apply, join, and the response OK (R194, R195). -/
def encipher (s : State) : Result :=
  andThen (execKsSchedule s) fun s =>
  andThen (execCdcSplit s) fun s =>
  andThen (execCdcApply s) fun s =>
  andThen (execCdcJoin s) respond

/-- A command: validation first; if it raises WrongInputSize nothing below runs (R194, R195; `60_exceptions.md`
R225). -/
def runCommand (dir : Dir) (w : Width) (r klen len : Nat) (s : State) : Result :=
  let s := start (Params.ofCommand dir w r klen len) s
  if validLength w len then encipher s else respond (raise .wrongInputSize s)

/-- ENC.8 (R194). -/
def execEnc8 (r klen len : Nat) (s : State) : Result := runCommand .enc .w8 r klen len s

/-- DEC.8 (R195). -/
def execDec8 (r klen len : Nat) (s : State) : Result := runCommand .dec .w8 r klen len s

/-- ENC.16 (R194). -/
def execEnc16 (r klen len : Nat) (s : State) : Result := runCommand .enc .w16 r klen len s

/-- DEC.16 (R195). -/
def execDec16 (r klen len : Nat) (s : State) : Result := runCommand .dec .w16 r klen len s

/-- ENC.32 (R194). -/
def execEnc32 (r klen len : Nat) (s : State) : Result := runCommand .enc .w32 r klen len s

/-- DEC.32 (R195). -/
def execDec32 (r klen len : Nat) (s : State) : Result := runCommand .dec .w32 r klen len s

/-- ENC.64 (R194). -/
def execEnc64 (r klen len : Nat) (s : State) : Result := runCommand .enc .w64 r klen len s

/-- DEC.64 (R195). -/
def execDec64 (r klen len : Nat) (s : State) : Result := runCommand .dec .w64 r klen len s

/-- ENC.128 (R194). -/
def execEnc128 (r klen len : Nat) (s : State) : Result := runCommand .enc .w128 r klen len s

/-- DEC.128 (R195). -/
def execDec128 (r klen len : Nat) (s : State) : Result := runCommand .dec .w128 r klen len s

/-- The bytes a command that passes validation returns, as a function of the request alone (`00_scope.md` R12, R13;
R194, R195). -/
def transform (dir : Dir) (w : Width) (r : Nat) (key data : List Byte) : List Byte :=
  joinWords w (applyPairs (blockFn dir r (subkeys w r key)) (splitWords w (data.length / w.bytes) data))

/-- The response to a legal command, as a function of the request alone (R194, R195). -/
def answer (dir : Dir) (w : Width) (r : Nat) (key data : List Byte) : Response :=
  if validLength w data.length then { status := .ok, out := transform dir w r key data }
  else { status := .wrongInputSize, out := [] }

/-- The response to any request, as a function of the request alone (`00_scope.md` R13, `10_state.md` R20). -/
def answerRequest (cmd : BitVec 32) (key data : List Byte) : Response :=
  match decodeFields cmd with
  | .ok f => answer f.dir f.w f.r key data
  | .rejected _ => { status := .illegalCmd, out := [] }

end Sys2Proof.Machine
end

