-- ==== Sys2Proof/Machine/Sequencer.lean ====
section
/-! DEFINITION. The sequencer: a command phase by phase (`10_state.md` R28). A step of the machine is a whole command
(`00_scope.md` R13); the phases are the finer description of the same thing, and a step from a state that stands
inside a command goes on from its phase to the response (notes/assumptions/2.md). -/

namespace Sys2Proof.Machine

/-- Blocks m, m + 1, … (n of them): load A and B from DIN, BLK.ENC or BLK.DEC by dir, store A and B to DOUT
(R28; `20_memory.md` R58). -/
def blocksLoop : Nat → Nat → State → Result
  | 0, _, s => .next s
  | n + 1, m, s =>
    let p := s.work.par
    match s.din.readN (m * 2 * p.u) p.u, s.din.readN (m * 2 * p.u + p.u) p.u with
    | some bsA, some bsB =>
      let wk := Working.blk { s.work with
        A := toReg (fromLE p.bits bsA), B := toReg (fromLE p.bits bsB), BLKN := m }
      let dout₁ := s.dout.writeN (m * 2 * p.u) (toLE p.u (toWord p.bits wk.A))
      let dout₂ := dout₁.writeN (m * 2 * p.u + p.u) (toLE p.u (toWord p.bits wk.B))
      blocksLoop n (m + 1) { s with work := wk, dout := dout₂ }
    | _, _ => .fault (.byteAbsent .din)

/-- The sequencer in a phase. -/
def goto (ph : Phase) (s : State) : Result := .next { s with phase := ph }

/-- What the sequencer does in its phase (R28). -/
def phaseStep (s : State) : Result :=
  match s.phase with
  | .idle =>
    match s.req with
    | none => .next s
    | some _ => goto .decode s
  | .decode =>
    match s.req with
    | none => .fault .noRequest
    | some q =>
      match decodeFields q.cmd with
      | .ok f => .next (start (Params.ofCommand f.dir f.w f.r f.b q.len) s.takeRequest)
      | .rejected _ => .next (raise .illegalCmd s.takeRequest)
  | .validate =>
    if validLength s.work.par.w s.work.par.N then goto .expand s else .next (raise .wrongInputSize s)
  | .expand => andThen (execKsExpand s) (goto .mix)
  | .mix => andThen (execKsMix s) (goto .blocks)
  | .blocks => andThen (blocksLoop (s.work.par.N / (2 * s.work.par.u)) 0 s) (goto .respond)
  | .respond => respond s

/-- At most n phases, stopping when the sequencer is idle. -/
def runPhases : Nat → State → Result
  | 0, s => .next s
  | n + 1, s => if s.phase = .idle then .next s else andThen (phaseStep s) (runPhases n)

/-- From the phase the sequencer stands in to the response: DECODE, VALIDATE, EXPAND, MIX, BLOCKS, RESPOND are six. -/
def resume (s : State) : Result := runPhases 6 s

end Sys2Proof.Machine
end

