-- ==== Sys2Proof/Machine/Dispatch.lean ====
section
/-! DEFINITION. One arm per instruction: each calls its meaning. -/

namespace Sys2Proof.Machine

def exec (i : Instr) (s : State) : Host.Outcome State Fault Refusal :=
  match i with
  | .enc8 r klen len => Sys2Proof.Machine.execEnc8 r klen len s
  | .dec8 r klen len => Sys2Proof.Machine.execDec8 r klen len s
  | .enc16 r klen len => Sys2Proof.Machine.execEnc16 r klen len s
  | .dec16 r klen len => Sys2Proof.Machine.execDec16 r klen len s
  | .enc32 r klen len => Sys2Proof.Machine.execEnc32 r klen len s
  | .dec32 r klen len => Sys2Proof.Machine.execDec32 r klen len s
  | .enc64 r klen len => Sys2Proof.Machine.execEnc64 r klen len s
  | .dec64 r klen len => Sys2Proof.Machine.execDec64 r klen len s
  | .enc128 r klen len => Sys2Proof.Machine.execEnc128 r klen len s
  | .dec128 r klen len => Sys2Proof.Machine.execDec128 r klen len s
  | .wAdd => Sys2Proof.Machine.execWAdd s
  | .wSub => Sys2Proof.Machine.execWSub s
  | .wXor => Sys2Proof.Machine.execWXor s
  | .wRotl => Sys2Proof.Machine.execWRotl s
  | .wRotr => Sys2Proof.Machine.execWRotr s
  | .wFromByte => Sys2Proof.Machine.execWFromByte s
  | .wToLe => Sys2Proof.Machine.execWToLe s
  | .wFromLe => Sys2Proof.Machine.execWFromLe s
  | .wConstP => Sys2Proof.Machine.execWConstP s
  | .wConstQ => Sys2Proof.Machine.execWConstQ s
  | .seqRestart => Sys2Proof.Machine.execSeqRestart s
  | .seqNext => Sys2Proof.Machine.execSeqNext s
  | .seqTake => Sys2Proof.Machine.execSeqTake s
  | .ksExpand => Sys2Proof.Machine.execKsExpand s
  | .ksMix => Sys2Proof.Machine.execKsMix s
  | .ksSchedule => Sys2Proof.Machine.execKsSchedule s
  | .blkEnc => Sys2Proof.Machine.execBlkEnc s
  | .blkDec => Sys2Proof.Machine.execBlkDec s
  | .cdcValidate => Sys2Proof.Machine.execCdcValidate s
  | .cdcSplit => Sys2Proof.Machine.execCdcSplit s
  | .cdcJoin => Sys2Proof.Machine.execCdcJoin s
  | .cdcApply => Sys2Proof.Machine.execCdcApply s

end Sys2Proof.Machine
end

