-- ==== Sys2Proof/Machine/Step.lean ====
section
/-! DEFINITION. One step of the machine, and how the host's check places an instruction where the next step takes it
(`00_scope.md` R13; `10_state.md` R28). -/

namespace Sys2Proof.Machine

/-- One step. If the sequencer names a unit operation, that operation runs (`30_encoding.md` R80). Otherwise, in phase
IDLE a waiting request is decoded and the whole command runs (`00_scope.md` R13); with no request the engine waits
(`10_state.md` R28). In any other phase the command goes on to its response. -/
def step (s : State) : Host.Outcome State Fault Refusal :=
  match s.usel with
  | some uop =>
    match decodeUnit uop with
    | .ok i => exec i { s with usel := none }
    | .rejected _ => .refused .reservedUnitCode
  | none =>
    match s.phase with
    | .idle =>
      match s.req with
      | none => .next s
      | some q =>
        match decodeCommand q.cmd q.len with
        | .ok i => exec i s.takeRequest
        | .rejected _ => refuseCommand s.takeRequest
    | _ => resume s

/-- The state in which the next step takes exactly the instruction with these table bits: a command as a waiting
request with its key bytes and data bytes all 0, a unit operation as the select code (notes/assumptions/16.md). -/
def State.withFetchWord (s : State) (nbits w : Nat) : State :=
  match codeOfTableWord nbits w with
  | none => s
  | some (.command cmd len) =>
    { s.withRequest { cmd := cmd, len := len } (List.replicate (cmd.extractLsb' 16 8).toNat 0) (List.replicate len 0)
        with usel := none, phase := .idle }
  | some (.unit uop) => { s with usel := some uop }

end Sys2Proof.Machine
end

