-- ==== Sys2Proof/Machine/Assembler.lean ====
section
/-! DEFINITION. The textual form of a command and of a response, and the pseudo-commands ENCD and DECD
(`30_encoding.md` R93, R94). The assembler is the host's, not the engine's: it turns a line into the request that the
host presents. -/

namespace Sys2Proof.Machine

/-- A line of text, read (R93). -/
inductive Line where
  | command (dir : Dir) (w : Width) (r : Nat) (key data : List Byte)
  /-- ENCD and DECD: the direction with the facade's defaults (R94) -/
  | pseudo (dir : Dir) (key data : List Byte)
  /-- `RAW cmd=0x........ len=<decimal>` -/
  | raw (cmd : BitVec 32) (len : Nat)
deriving DecidableEq, Repr

/-- What the host presents: CMD and LEN, and the key and data bytes that travel with them (R80). -/
structure Submission where
  req : Request
  key : List Byte
  data : List Byte
deriving DecidableEq, Repr

/-- The assembler on a command: "It rejects `r` above 255 and a key longer than 255 bytes, which no command word can
carry" (R93). -/
def assembleCommand (dir : Dir) (w : Width) (r : Nat) (key data : List Byte) : Option Submission :=
  if okFields r key.length then
    some { req := { cmd := commandWord dir w r key.length, len := data.length }, key := key, data := data }
  else none

/-- The assembler (R93, R94). DESIGN CHOICE: R93 gives RAW for illegal words and does not say what a RAW line with a legal
word does; here it is taken too, and carries no key and no data bytes (notes/assumptions/19.md). -/
def assemble : Line → Option Submission
  | .command dir w r key data => assembleCommand dir w r key data
  | .pseudo dir key data => assembleCommand dir Config.defaultWidth Config.defaultRounds key data
  | .raw cmd len => some { req := { cmd := cmd, len := len }, key := [], data := [] }

/-- Present a line to the engine, where the assembler takes the line and the host has the move. -/
def presentLine (l : Line) (s : State) : Option State :=
  match assemble l with
  | some x => present x.req x.key x.data s
  | none => none

/-! ### Reading the text -/

/-- Take a fixed piece of text off the front. -/
def expect : List Char → List Char → Option (List Char)
  | [], cs => some cs
  | p :: ps, c :: cs => if p = c then expect ps cs else none
  | _ :: _, [] => none

/-- The characters up to the first blank, and what follows from there. -/
def token : List Char → List Char × List Char
  | [] => ([], [])
  | c :: cs => if c = ' ' then ([], c :: cs) else (c :: (token cs).1, (token cs).2)

/-- The value of a hex digit. -/
def hexDigit (c : Char) : Option Nat :=
  let n := c.toNat
  if 48 ≤ n ∧ n ≤ 57 then some (n - 48)
  else if 65 ≤ n ∧ n ≤ 70 then some (n - 55)
  else if 97 ≤ n ∧ n ≤ 102 then some (n - 87)
  else none

/-- A decimal number: every character a digit, at least one. -/
def decimal : List Char → Nat → Option Nat
  | [], acc => some acc
  | c :: cs, acc => if 48 ≤ c.toNat ∧ c.toNat ≤ 57 then decimal cs (10 * acc + (c.toNat - 48)) else none

/-- Hex digits, most significant first. -/
def hexNumber : List Char → Nat → Option Nat
  | [], acc => some acc
  | c :: cs, acc =>
    match hexDigit c with
    | some d => hexNumber cs (16 * acc + d)
    | none => none

/-- Pairs of hex digits up to the closing bracket, and what follows it. -/
def hexPairs : List Char → Option (List Byte × List Char)
  | ']' :: rest => some ([], rest)
  | h :: l :: cs =>
    match hexDigit h, hexDigit l, hexPairs cs with
    | some a, some b, some (bs, rest) => some (BitVec.ofNat 8 (16 * a + b) :: bs, rest)
    | _, _, _ => none
  | _ => none

/-- `hexbytes` (R93). -/
def hexBytes (cs : List Char) : Option (List Byte × List Char) := (expect ['['] cs).bind hexPairs

/-- `" key=" hexbytes " data=" hexbytes`, to the end of the line. -/
def keyAndData (cs : List Char) : Option (List Byte × List Byte) := do
  let cs ← expect " key=".toList cs
  let (key, cs) ← hexBytes cs
  let cs ← expect " data=".toList cs
  let (data, cs) ← hexBytes cs
  if cs = [] then some (key, data) else none

/-- `mnemonic` (R93). -/
def mnemonic (cs : List Char) : Option (Dir × Width) :=
  if cs = "ENC.8".toList then some (.enc, .w8)
  else if cs = "DEC.8".toList then some (.dec, .w8)
  else if cs = "ENC.16".toList then some (.enc, .w16)
  else if cs = "DEC.16".toList then some (.dec, .w16)
  else if cs = "ENC.32".toList then some (.enc, .w32)
  else if cs = "DEC.32".toList then some (.dec, .w32)
  else if cs = "ENC.64".toList then some (.enc, .w64)
  else if cs = "DEC.64".toList then some (.dec, .w64)
  else if cs = "ENC.128".toList then some (.enc, .w128)
  else if cs = "DEC.128".toList then some (.dec, .w128)
  else none

/-- `pseudo` (R93). -/
def pseudoMnemonic (cs : List Char) : Option Dir :=
  if cs = "ENCD".toList then some .enc else if cs = "DECD".toList then some .dec else none

/-- The rest of a line that begins with a mnemonic. -/
def readCommand (dir : Dir) (w : Width) (cs : List Char) : Option Line := do
  let cs ← expect " r=".toList cs
  let (ds, cs) := token cs
  let r ← if ds = [] then none else decimal ds 0
  let (key, data) ← keyAndData cs
  some (.command dir w r key data)

/-- The rest of a RAW line: eight hex digits and a decimal length. -/
def readRaw (cs : List Char) : Option Line := do
  let cs ← expect " cmd=0x".toList cs
  let (hs, cs) := token cs
  let cmd ← if hs.length = 8 then hexNumber hs 0 else none
  let cs ← expect " len=".toList cs
  let len ← if cs = [] then none else decimal cs 0
  some (.raw (BitVec.ofNat 32 cmd) len)

/-- Read one line of the grammar of R93. -/
def readLine (line : String) : Option Line :=
  let (head, cs) := token line.toList
  match mnemonic head, pseudoMnemonic head with
  | some (dir, w), _ => readCommand dir w cs
  | none, some dir => (keyAndData cs).map fun kd => .pseudo dir kd.1 kd.2
  | none, none => if head = "RAW".toList then readRaw cs else none

/-! ### Writing the response -/

/-- One hex digit as text. -/
def hexChar (n : Nat) : Char := if n < 10 then Char.ofNat (48 + n) else Char.ofNat (55 + n)

/-- `hexbytes` as text. -/
def showBytes (bs : List Byte) : List Char :=
  '[' :: (bs.flatMap fun v => [hexChar (v.toNat / 16), hexChar (v.toNat % 16)]) ++ [']']

/-- `response` (R93). -/
def showResponse (p : Response) : String :=
  match p.status with
  | .ok => String.ofList ("OK ".toList ++ showBytes p.out)
  | .wrongInputSize => "WRONG_INPUT_SIZE"
  | .illegalCmd => "ILLEGAL_CMD"

end Sys2Proof.Machine
end

