-- ==== Sys2Proof/Safety.lean ====
section
/-! DEFINITION. The terms in which statements speak: a completed step, a request whose bytes the host has supplied,
the state after a response, bytes left as they were, and the invariant of a state. -/

namespace Sys2Proof.Machine

/-- The step answers a next state. -/
def Completes (o : Result) : Prop := ∃ t, o = .next t

/-- The host has supplied exactly these key bytes and data bytes from address 0 on, whatever stands beyond them
(`70_reset_and_hazards.md` R253 (a), `20_memory.md` R51, R52). -/
def State.Supplies (s : State) (key data : List Byte) : Prop :=
  s.key.readN 0 key.length = some key ∧ s.din.readN 0 data.length = some data

/-- The state after a command whose response is p and after which DOUT is as given: idle, and the working state a
free value. Everything else is as before the command. -/
def State.answered (s : State) (p : Response) (dout : Memory) : State :=
  { s with
    resp := some p
    phase := .idle
    outcome := p.status
    work := Config.freeWorking s.draws
    dout := dout
    draws := s.draws + 1 }

/-- t is s after a command whose response is p and after which DOUT is as given: idle, and KEY, DIN, the request and the
unit code as before. The working state is unspecified (`10_state.md` R35). -/
structure State.AnsweredBy (s t : State) (p : Response) (dout : Memory) : Prop where
  resp : t.resp = some p
  phase : t.phase = .idle
  dout : t.dout = dout
  key : t.key = s.key
  din : t.din = s.din
  req : t.req = s.req
  usel : t.usel = s.usel

/-- Rotate left by the formula of `40_word_arithmetic.md` R115, on naturals below 2^w. -/
def rotlNat (w x n : Nat) : Nat :=
  if n % w = 0 then x else x * 2 ^ (n % w) % 2 ^ w + x / 2 ^ (w - n % w)

/-- Rotate right by the formula of `40_word_arithmetic.md` R116, on naturals below 2^w. -/
def rotrNat (w x n : Nat) : Nat :=
  if n % w = 0 then x else x / 2 ^ (n % w) + x % 2 ^ (n % w) * 2 ^ (w - n % w)

/-- Every byte of a buffer outside the n bytes from address a on is as it was. -/
def Memory.SameOutside (m m' : Memory) (a n : Nat) : Prop := ∀ x, x < a ∨ a + n ≤ x → m'.read x = m.read x

/-- The ten host commands, against the unit operations (`30_encoding.md` R80). -/
def isCommand : Instr → Bool
  | .enc8 _ _ _ => true
  | .dec8 _ _ _ => true
  | .enc16 _ _ _ => true
  | .dec16 _ _ _ => true
  | .enc32 _ _ _ => true
  | .dec32 _ _ _ => true
  | .enc64 _ _ _ => true
  | .dec64 _ _ _ => true
  | .enc128 _ _ _ => true
  | .dec128 _ _ _ => true
  | .wAdd => false
  | .wSub => false
  | .wXor => false
  | .wRotl => false
  | .wRotr => false
  | .wFromByte => false
  | .wToLe => false
  | .wFromLe => false
  | .wConstP => false
  | .wConstQ => false
  | .seqRestart => false
  | .seqNext => false
  | .seqTake => false
  | .ksExpand => false
  | .ksMix => false
  | .ksSchedule => false
  | .blkEnc => false
  | .blkDec => false
  | .cdcValidate => false
  | .cdcSplit => false
  | .cdcJoin => false
  | .cdcApply => false

/-- Several instructions one after another. -/
def execAll : List Instr → State → Result
  | [], s => .next s
  | i :: is, s => andThen (exec i s) (execAll is)

/-- The invariant of a state: the buffers are in canonical form, and a response that is not OK carries no bytes
(`30_encoding.md` R92). -/
structure State.Inv (s : State) : Prop where
  keyWf : s.key.wf
  dinWf : s.din.wf
  doutWf : s.dout.wf
  noBytesOnFailure : ∀ p, s.resp = some p → p.status ≠ .ok → p.out = []

end Sys2Proof.Machine
end

