-- ==== Sys2Proof/Certificates/Slice0/Obligations.lean ====
section
/-! DEFINITION. The statements for the provers. `Instr.command dir w` is, as dir and w range, each of the ten command
constructors. A full equation for the next state is a statement's frame: what it does not name is as before. -/

open Sys2Proof Sys2Proof.Machine

/-! ### Encoding -/

/-- Decode and encode agree, for all 32 instructions, every operand at every value the encoding admits. -/
def Obligations.DecodeEncodeRoundTrip : Prop :=
  ∀ i : Instr, i.WellFormed → decode (encode i) = .ok i

/-- The other way: a code that decodes is spelled by the encoder, and what it decodes to is well formed. -/
def Obligations.EncodeDecodeRoundTrip : Prop :=
  ∀ (c : Code) (i : Instr), decode c = .ok i → i.WellFormed ∧ encode i = c

/-- R88: decoding is total; a word whose reserved bits are 0 and whose WSEL is at most 4 is ENC or DEC by its bit 0, with
w, r and b of R97, every other word is rejected by name; the legal words by mask, and by opcode byte and top byte. -/
def Obligations.LegalCommandWords : Prop :=
  ∀ (cmd : BitVec 32) (len : Nat),
    (cmd.extractLsb' 24 8 ≠ 0 ∨ cmd.extractLsb' 4 4 ≠ 0 ∨ 5 ≤ (cmd.extractLsb' 1 3).toNat →
      decodeCommand cmd len = .rejected .illegalCommand) ∧
    (cmd.extractLsb' 24 8 = 0 → cmd.extractLsb' 4 4 = 0 → (cmd.extractLsb' 1 3).toNat < 5 →
      ∃ w : Width, w.bits = 8 * 2 ^ (cmd.extractLsb' 1 3).toNat ∧
        decodeCommand cmd len = .ok (Instr.command (if cmd.extractLsb' 0 1 = 0 then .enc else .dec) w
          (cmd.extractLsb' 8 8).toNat (cmd.extractLsb' 16 8).toNat len)) ∧
    ((∃ i, decodeCommand cmd len = .ok i) ↔ cmd &&& 0xFF0000F0#32 = 0 ∧ (cmd.extractLsb' 1 3).toNat ≤ 4) ∧
    ((∃ i, decodeCommand cmd len = .ok i) ↔ (cmd.extractLsb' 0 8).toNat ≤ 9 ∧ cmd.extractLsb' 24 8 = 0)

/-- R89: a word spells the command of a row exactly when `W & mask = match`; R97: with r and b its bits 15:8 and 23:16
and N the LEN word. -/
def Obligations.CommandRowsByMask : Prop :=
  ∀ (cmd : BitVec 32) (len : Nat), ∀ row ∈ ([(.enc, .w8, 0x00000000#32), (.dec, .w8, 0x00000001#32),
      (.enc, .w16, 0x00000002#32), (.dec, .w16, 0x00000003#32), (.enc, .w32, 0x00000004#32), (.dec, .w32, 0x00000005#32),
      (.enc, .w64, 0x00000006#32), (.dec, .w64, 0x00000007#32), (.enc, .w128, 0x00000008#32),
      (.dec, .w128, 0x00000009#32)] : List (Dir × Width × BitVec 32)),
    decodeCommand cmd len =
        .ok (Instr.command row.1 row.2.1 (cmd.toNat / 2 ^ 8 % 2 ^ 8) (cmd.toNat / 2 ^ 16 % 2 ^ 8) len) ↔
      cmd &&& 0xFF0000FF#32 = row.2.2

/-- Words of V42 and codes of R90, written out from the spec's encodings. A sanity statement. -/
def Obligations.SampleWordsDecode : Prop :=
  decodeCommand 0x00100C04 8 = .ok (.enc32 12 16 8) ∧ decodeCommand 0x00100C05 8 = .ok (.dec32 12 16 8) ∧
  decodeCommand 0x00800100 4 = .ok (.enc8 1 128 4) ∧ decodeCommand 0x00030202 8 = .ok (.enc16 2 3 8) ∧
  decodeCommand 0x00080106 16 = .ok (.enc64 1 8 16) ∧ decodeCommand 0x00FFFF09 0 = .ok (.dec128 255 255 0) ∧
  decodeCommand 0x0000000A 8 = .rejected .illegalCommand ∧ decodeCommand 0x01000004 8 = .rejected .illegalCommand ∧
  decodeUnit 0x03 = .ok .wRotl ∧ decodeUnit 0x0E = .ok .ksMix ∧ decodeUnit 0x15 = .ok .cdcApply

/-- R90, R91: the codes 0x00 to 0x15 name a unit operation each; a step on a reserved code is refused by name. -/
def Obligations.UnitCodesAndReservedCodes : Prop :=
  ∀ uop : BitVec 5,
    (uop.toNat ≤ 0x15 → ∃ i, decodeUnit uop = .ok i ∧ isCommand i = false ∧ encode i = .unit uop) ∧
    (0x16 ≤ uop.toNat → ∀ s : State, s.usel = some uop → step s = .refused .reservedUnitCode)

/-- R230, R80: what the host can ask is one of the ten commands and nothing else; a request never decodes to a unit
operation. R253 (b), R259: it has no move while a request waits or a command runs; otherwise its move puts the request
and its bytes there and changes nothing else (that KEY and DIN stand until the next such move is the model's choice,
notes/assumptions/21.md). -/
def Obligations.HostIssuesOnlyTheTenCommands : Prop :=
  (∀ (cmd : BitVec 32) (len : Nat) (i : Instr), decodeCommand cmd len = .ok i →
    isCommand i = true ∧ ∃ dir w r b, i = Instr.command dir w r b len) ∧
  ∀ (s : State) (q : Request) (key data : List Byte),
    (s.req ≠ none ∨ s.phase ≠ .idle → present q key data s = none) ∧
    (s.req = none → s.phase = .idle → ∃ t, present q key data s = some t ∧ t.Supplies key data ∧
      t = { s with req := some q, key := t.key, din := t.din })

/-- R94: the pseudo-commands expand to ENC.32 and DEC.32 with r = 12, whatever the key and data; for a key of at most
255 bytes CMD is as the table says, and a longer key is rejected (R93). -/
def Obligations.PseudoCommandsExpand : Prop :=
  ∀ (dir : Dir) (key data : List Byte),
    assemble (.pseudo dir key data) = assemble (.command dir .w32 12 key data) ∧
    (255 < key.length → assemble (.pseudo dir key data) = none) ∧
    (key.length ≤ 255 → assemble (.pseudo dir key data) =
      some { req := { cmd := BitVec.ofNat 32 ((if dir = .enc then 0x00000C04 else 0x00000C05) + key.length * 0x10000)
                      len := data.length }
             key := key, data := data })

/-- R93: the assembler rejects r above 255 and a key longer than 255 bytes, and what it makes of a command is the
word of that command. -/
def Obligations.AssemblerMakesLegalWords : Prop :=
  ∀ (dir : Dir) (w : Width) (r : Nat) (key data : List Byte),
    (255 < r ∨ 255 < key.length → assemble (.command dir w r key data) = none) ∧
    (r ≤ 255 → key.length ≤ 255 → ∃ x, assemble (.command dir w r key data) = some x ∧ x.key = key ∧ x.data = data ∧
      decodeCommand x.req.cmd x.req.len = .ok (Instr.command dir w r key.length data.length))

/-! ### The word-arithmetic unit -/

/-- R112, R113, R114: W.ADD, W.SUB and W.XOR by their codes, that they complete, and their results; only the result
port changes. -/
def Obligations.AddSubXorResults : Prop :=
  decodeUnit 0x00 = .ok .wAdd ∧ decodeUnit 0x01 = .ok .wSub ∧ decodeUnit 0x02 = .ok .wXor ∧
  ∀ s : State, ∃ x y z : BitVec s.work.par.bits,
    exec .wAdd s = .next (s.onWork fun wk => wk.setOut x) ∧
    x.toNat = (s.work.opA.toNat + s.work.opB.toNat) % 2 ^ s.work.par.bits ∧
    exec .wSub s = .next (s.onWork fun wk => wk.setOut y) ∧
    y.toNat = (if s.work.opB.toNat ≤ s.work.opA.toNat then s.work.opA.toNat - s.work.opB.toNat
      else s.work.opA.toNat + 2 ^ s.work.par.bits - s.work.opB.toNat) ∧
    exec .wXor s = .next (s.onWork fun wk => wk.setOut z) ∧
    ∀ k < s.work.par.bits, z.getLsbD k = (s.work.opA.getLsbD k != s.work.opB.getLsbD k)

/-- R115: W.ROTL by its code, that it completes; its result by the rule's formula, and bit by bit. -/
def Obligations.RotateLeftResult : Prop :=
  decodeUnit 0x03 = .ok .wRotl ∧
  ∀ s : State, ∃ x : BitVec s.work.par.bits,
    exec .wRotl s = .next (s.onWork fun wk => wk.setOut x) ∧
    x.toNat = (if s.work.ports.amount % s.work.par.bits = 0 then s.work.opA.toNat
      else s.work.opA.toNat * 2 ^ (s.work.ports.amount % s.work.par.bits) % 2 ^ s.work.par.bits +
        s.work.opA.toNat / 2 ^ (s.work.par.bits - s.work.ports.amount % s.work.par.bits)) ∧
    ∀ j < s.work.par.bits,
      x.getLsbD ((j + s.work.ports.amount % s.work.par.bits) % s.work.par.bits) = s.work.opA.getLsbD j

/-- R116: W.ROTR by its code, that it completes; its result by the rule's formula, and bit by bit. -/
def Obligations.RotateRightResult : Prop :=
  decodeUnit 0x04 = .ok .wRotr ∧
  ∀ s : State, ∃ x : BitVec s.work.par.bits,
    exec .wRotr s = .next (s.onWork fun wk => wk.setOut x) ∧
    x.toNat = (if s.work.ports.amount % s.work.par.bits = 0 then s.work.opA.toNat
      else s.work.opA.toNat / 2 ^ (s.work.ports.amount % s.work.par.bits) +
        s.work.opA.toNat % 2 ^ (s.work.ports.amount % s.work.par.bits) *
          2 ^ (s.work.par.bits - s.work.ports.amount % s.work.par.bits)) ∧
    ∀ j < s.work.par.bits,
      x.getLsbD ((j + s.work.par.bits - s.work.ports.amount % s.work.par.bits) % s.work.par.bits) =
        s.work.opA.getLsbD j

/-- R117, the derived equations: a word as an amount counts by its value mod w, and the sum of two words as an amount
may be exact or wraparound. -/
def Obligations.WordAsRotationAmount : Prop :=
  ∀ (w : Width) (x a b : Word w),
    val (addW a b) % w.bits = (val a + val b) % w.bits ∧
    rotl x (val (addW a b)) = rotl x (val a + val b) ∧ rotr x (val (addW a b)) = rotr x (val a + val b) ∧
    rotl x (val a) = rotl x (val a % w.bits) ∧ rotr x (val a) = rotr x (val a % w.bits)

/-- R118, R119, R120: W.FROMBYTE, W.TOLE and W.FROMLE by their codes, that they complete, and their results. -/
def Obligations.ByteConversionResults : Prop :=
  decodeUnit 0x05 = .ok .wFromByte ∧ decodeUnit 0x06 = .ok .wToLe ∧ decodeUnit 0x07 = .ok .wFromLe ∧
  ∀ s : State, ∃ (x y : BitVec s.work.par.bits) (bs : List Byte),
    exec .wFromByte s = .next (s.onWork fun wk => wk.setOut x) ∧ x.toNat = s.work.ports.byte.toNat ∧
    exec .wToLe s = .next (s.onWork fun wk => wk.setLanes bs) ∧ bs.length = s.work.par.u ∧
    (∀ i < s.work.par.u, (bs[i]?).map BitVec.toNat = some (s.work.opA.toNat / 2 ^ (8 * i) % 256)) ∧
    exec .wFromLe s = .next (s.onWork fun wk => wk.setOut y) ∧
    y.toNat = ∑ i ∈ Finset.range s.work.par.u, ((s.work.ports.lanes.toList)[i]?.getD 0).toNat * 2 ^ (8 * i)

/-- R121, R122: W.CONSTP and W.CONSTQ by their codes, that they complete with the table's literals. -/
def Obligations.ConstantResults : Prop :=
  decodeUnit 0x08 = .ok .wConstP ∧ decodeUnit 0x09 = .ok .wConstQ ∧
  ∀ s : State, ∀ row ∈ ([(.w8, 0xb7, 0x9f), (.w16, 0xb7e1, 0x9e37), (.w32, 0xb7e15163, 0x9e3779b9),
      (.w64, 0xb7e151628aed2a6b, 0x9e3779b97f4a7c15),
      (.w128, 0xb7e151628aed2a6abf7158809cf4f3c7, 0x9e3779b97f4a7c15f39cc0605cedc835)] : List (Width × Reg × Reg)),
    s.work.par.w = row.1 →
      exec .wConstP s = .next (s.onWork fun wk => wk.setOut row.2.1) ∧
      exec .wConstQ s = .next (s.onWork fun wk => wk.setOut row.2.2)

/-- R124: the inverse laws of the unit. -/
def Obligations.UnitInverses : Prop :=
  ∀ (w : Width) (a b : Word w) (n : Nat) (bs : List Byte), bs.length = w.bytes →
    subW (addW a b) b = a ∧ addW (subW a b) b = a ∧ xorW (xorW a b) b = a ∧ rotr (rotl a n) n = a ∧
    rotl (rotr a n) n = a ∧ fromLE w.bits (toLE w.bytes a) = a ∧ toLE w.bytes (fromLE w.bits bs) = bs

/-! ### The key sequence generator -/

/-- R141, R142: SEQ.RESTART and SEQ.NEXT by their codes, that they complete; only G and the result port change. -/
def Obligations.RestartAndNextResults : Prop :=
  decodeUnit 0x0A = .ok .seqRestart ∧ decodeUnit 0x0B = .ok .seqNext ∧
  ∀ s : State,
    exec .seqRestart s = .next (s.onWork fun wk => { wk with G := toReg (constP wk.par.w) }) ∧
    ∃ g : Word s.work.par.w,
      g.toNat = ((toWord s.work.par.bits s.work.G).toNat + (constQ s.work.par.w).toNat) % 2 ^ s.work.par.bits ∧
      exec .seqNext s =
        .next (s.onWork fun wk => { wk.setOut (toWord s.work.par.bits s.work.G) with G := toReg g })

/-- R144: the closed form of the sequence. -/
def Obligations.SequenceClosedForm : Prop :=
  ∀ (w : Width) (i : Nat), (seqTerm w i).toNat = ((constP w).toNat + i * (constQ w).toNat) % 2 ^ w.bits

/-- R140, R142: after a restart and n uses of NEXT, the next NEXT emits term n, from any state. -/
def Obligations.NextEmitsTheSequence : Prop :=
  ∀ (s : State) (n : Nat), ∃ t,
    execAll (.seqRestart :: List.replicate (n + 1) .seqNext) s = .next t ∧
    toWord s.work.par.bits t.work.ports.out = seqTerm s.work.par.w n ∧ t.work.S = s.work.S

/-- R143: SEQ.TAKE by its code; it completes for every count that S has entries for: S[0] to S[t-1] are the first t
terms, the entries above are not written, and only S, G and SIDX change. SIDX is left open here. -/
def Obligations.TakeFillsTheTable : Prop :=
  decodeUnit 0x0C = .ok .seqTake ∧
  ∀ s : State, s.work.ports.count ≤ 512 → ∃ t, exec .seqTake s = .next t ∧
    (∀ i < s.work.ports.count, t.work.S.toList[i]? = some (toReg (seqTerm s.work.par.w i))) ∧
    (∀ i, s.work.ports.count ≤ i → t.work.S.toList[i]? = s.work.S.toList[i]?) ∧
    t.work.G = toReg (seqTerm s.work.par.w s.work.ports.count) ∧
    t = { s with work := { s.work with S := t.work.S, G := t.work.G, SIDX := t.work.SIDX } }

/-! ### The key schedule -/

/-- R152: the expansion is the key padded with zero bytes and read as c little-endian words. -/
def Obligations.ExpansionClosedForm : Prop :=
  ∀ (w : Width) (key : List Byte),
    expandKey w key =
      splitWords w (keyWords w.bytes key.length)
        (key ++ List.replicate (keyWords w.bytes key.length * w.bytes - key.length) 0)

/-- R153: the zero-length key, and the key of u zero bytes with the same table. -/
def Obligations.ZeroLengthKey : Prop :=
  ∀ (w : Width) (r : Nat),
    keyWords w.bytes 0 = 1 ∧ expandKey w [] = [0] ∧ subkeys w r (List.replicate w.bytes 0) = subkeys w r []

/-- R150: KS.EXPAND by its code; it completes when the b key bytes are supplied: L[0] to L[c-1] are the expanded key,
the entries above are not written, and only L and KIDX change. KIDX is left open here. -/
def Obligations.ExpandResult : Prop :=
  decodeUnit 0x0D = .ok .ksExpand ∧
  ∀ (s : State) (key : List Byte), s.keyBytes = some key → ∃ t, exec .ksExpand s = .next t ∧
    readWords s.work.par.bits s.work.par.c t.work.L = expandKey s.work.par.w key ∧
    (∀ i, s.work.par.c ≤ i → t.work.L.toList[i]? = s.work.L.toList[i]?) ∧
    t = { s with work := { s.work with L := t.work.L, KIDX := t.work.KIDX } }

/-- R155, R25: I and J after n iterations, and the bounds of the iteration count. -/
def Obligations.MixIndicesAndCount : Prop :=
  ∀ (w : Width) (r b n : Nat) (S L : List (Word w)), r ≤ 255 → b ≤ 255 →
    (mixLoop (tableLen r) (keyWords w.bytes b) n { A := 0, B := 0, I := 0, J := 0, S := S, L := L }).I =
      n % tableLen r ∧
    (mixLoop (tableLen r) (keyWords w.bytes b) n { A := 0, B := 0, I := 0, J := 0, S := S, L := L }).J =
      n % keyWords w.bytes b ∧
    6 ≤ mixCount (tableLen r) (keyWords w.bytes b) ∧ mixCount (tableLen r) (keyWords w.bytes b) ≤ 1536

/-- R154, R156, R157: KS.MIX by its code; it completes. It starts from the first t terms of the sequence as S, the first c
entries of L, and A = B = I = J = 0, and runs 3 * max(t, c) iterations; the entries of S and L above are not written,
and nothing outside the registers that the rule writes changes (SIDX and MITER are left open here). One iteration, in
plain arithmetic: the A line, then the B line with the new A and the old B, each stored where its index stands, then the
indices. -/
def Obligations.MixResult : Prop :=
  decodeUnit 0x0E = .ok .ksMix ∧
  (∀ s : State, ∃ (t : State) (m : Mix s.work.par.bits),
    m = (mixStep s.work.par.t s.work.par.c)^[3 * max s.work.par.t s.work.par.c]
      { A := 0, B := 0, I := 0, J := 0
        S := (List.range s.work.par.t).map (seqTerm s.work.par.w)
        L := readWords s.work.par.bits s.work.par.c s.work.L } ∧
    exec .ksMix s = .next t ∧
    readWords s.work.par.bits s.work.par.t t.work.S = m.S ∧ readWords s.work.par.bits s.work.par.c t.work.L = m.L ∧
    (∀ i, s.work.par.t ≤ i → t.work.S.toList[i]? = s.work.S.toList[i]?) ∧
    (∀ i, s.work.par.c ≤ i → t.work.L.toList[i]? = s.work.L.toList[i]?) ∧
    toWord s.work.par.bits t.work.A = m.A ∧ toWord s.work.par.bits t.work.B = m.B ∧
    t.work.I.toNat = m.I ∧ t.work.J.toNat = m.J ∧
    t = { s with work := { s.work with
      S := t.work.S, L := t.work.L, A := t.work.A, B := t.work.B, G := t.work.G, I := t.work.I, J := t.work.J
      SIDX := t.work.SIDX, MITER := t.work.MITER } }) ∧
  ∀ (w : Width) (t c : Nat) (m : Mix w.bits), ∃ a b : Word w,
    mixStep t c m =
      { A := a, B := b, I := (m.I + 1) % t, J := (m.J + 1) % c, S := m.S.set m.I a, L := m.L.set m.J b } ∧
    a.toNat = rotlNat w.bits (((m.S[m.I]?.getD 0).toNat + m.A.toNat + m.B.toNat) % 2 ^ w.bits) 3 ∧
    b.toNat = rotlNat w.bits (((m.L[m.J]?.getD 0).toNat + a.toNat + m.B.toNat) % 2 ^ w.bits) (a.toNat + m.B.toNat)

/-- R159: KS.SCHEDULE by its code; it is KS.MIX of KS.EXPAND; it completes when the key bytes are supplied, and the table
is a function of (w, r, key bytes) alone. -/
def Obligations.ScheduleResult : Prop :=
  decodeUnit 0x0F = .ok .ksSchedule ∧ (∀ s : State, exec .ksSchedule s = execAll [.ksExpand, .ksMix] s) ∧
  ∀ (s : State) (key : List Byte), s.keyBytes = some key → ∃ t,
    exec .ksSchedule s = .next t ∧
    readWords s.work.par.bits s.work.par.t t.work.S = subkeys s.work.par.w s.work.par.r.toNat key ∧
    (∀ i, s.work.par.t ≤ i → t.work.S.toList[i]? = s.work.S.toList[i]?) ∧
    (∀ i, s.work.par.c ≤ i → t.work.L.toList[i]? = s.work.L.toList[i]?) ∧
    t.work.par = s.work.par ∧ t.work.ports = s.work.ports ∧ t.work.RND = s.work.RND ∧
    t.work.BLKN = s.work.BLKN ∧ t = { s with work := t.work }

/-- R160: the table has exactly 2r + 2 words. -/
def Obligations.SubkeyTableShape : Prop :=
  ∀ (w : Width) (r : Nat) (key : List Byte), (subkeys w r key).length = 2 * r + 2

/-! ### The block round function -/

/-- R170, R171, R175: BLK.ENC and BLK.DEC by their codes; they complete; A and B are the block transformed, and only A, B
and RND change (RND is left open here). The transformations, in plain arithmetic, from r rounds to r + 1: encode adds
round r + 1 at the end, the A line and then the B line with the new A; decode does round r + 1 first, the B line and
then the A line with the new B. RoundCountZero states them for no round. -/
def Obligations.BlockOperationResults : Prop :=
  decodeUnit 0x10 = .ok .blkEnc ∧ decodeUnit 0x11 = .ok .blkDec ∧
  (∀ s : State, ∃ t u,
    exec .blkEnc s = .next t ∧
    (toWord s.work.par.bits t.work.A, toWord s.work.par.bits t.work.B) =
      encBlock s.work.par.r.toNat s.work.table s.work.block ∧
    t = { s with work := { s.work with A := t.work.A, B := t.work.B, RND := t.work.RND } } ∧
    exec .blkDec s = .next u ∧
    (toWord s.work.par.bits u.work.A, toWord s.work.par.bits u.work.B) =
      decBlock s.work.par.r.toNat s.work.table s.work.block ∧
    u = { s with work := { s.work with A := u.work.A, B := u.work.B, RND := u.work.RND } }) ∧
  (∀ (w : Width) (r : Nat) (S : List (Word w)) (ab : Block w.bits), ∃ x y a b : Word w,
    encBlock r S ab = (x, y) ∧ encBlock (r + 1) S ab = (a, b) ∧
    a.toNat = (rotlNat w.bits (x.toNat ^^^ y.toNat) y.toNat + (S[2 * (r + 1)]?.getD 0).toNat) % 2 ^ w.bits ∧
    b.toNat = (rotlNat w.bits (y.toNat ^^^ a.toNat) a.toNat + (S[2 * (r + 1) + 1]?.getD 0).toNat) % 2 ^ w.bits) ∧
  ∀ (w : Width) (r : Nat) (S : List (Word w)) (a b : Word w), ∃ a' b' : Word w,
    decBlock (r + 1) S (a, b) = decBlock r S (a', b') ∧
    b'.toNat = rotrNat w.bits ((b.toNat + 2 ^ w.bits - (S[2 * (r + 1) + 1]?.getD 0).toNat) % 2 ^ w.bits) a.toNat ^^^
      a.toNat ∧
    a'.toNat = rotrNat w.bits ((a.toNat + 2 ^ w.bits - (S[2 * (r + 1)]?.getD 0).toNat) % 2 ^ w.bits) b'.toNat ^^^
      b'.toNat

/-- R172: decode is the inverse of encode, for every table and every block, and the other way round. -/
def Obligations.BlockInverse : Prop :=
  ∀ (w : Width) (r : Nat) (S : List (Word w)) (ab : Block w.bits),
    decBlock r S (encBlock r S ab) = ab ∧ encBlock r S (decBlock r S ab) = ab

/-- R173: with r = 0 the block operations are the two additions, and the two subtractions, whatever stands in the table
beyond its two entries. -/
def Obligations.RoundCountZero : Prop :=
  ∀ (w : Width) (s₀ s₁ a b : Word w) (S : List (Word w)),
    encBlock 0 (s₀ :: s₁ :: S) (a, b) =
      (BitVec.ofNat w.bits (a.toNat + s₀.toNat), BitVec.ofNat w.bits (b.toNat + s₁.toNat)) ∧
    decBlock 0 (s₀ :: s₁ :: S) (a, b) =
      (BitVec.ofNat w.bits (a.toNat + 2 ^ w.bits - s₀.toNat), BitVec.ofNat w.bits (b.toNat + 2 ^ w.bits - s₁.toNat))

/-- R174: no entry of the table beyond 2r + 1 is read. -/
def Obligations.SubkeysReadByBlock : Prop :=
  ∀ (w : Width) (r : Nat) (S S' : List (Word w)), (∀ i < 2 * r + 2, S[i]? = S'[i]?) → ∀ ab : Block w.bits,
    encBlock r S ab = encBlock r S' ab ∧ decBlock r S ab = decBlock r S' ab

/-! ### The block codec -/

/-- R190, R220, R224: CDC.VALIDATE by its code; it answers ok, changing nothing, exactly when neither test fails, and
otherwise raises WrongInputSize, which changes nothing but the phase and the status noted (in a field of the model's
own, notes/assumptions/12.md); the two tests are N mod (2u) = 0. -/
def Obligations.ValidateResult : Prop :=
  decodeUnit 0x12 = .ok .cdcValidate ∧
  ∀ s : State,
    ((s.work.par.N % s.work.par.u = 0 ∧ s.work.par.N / s.work.par.u % 2 = 0) → exec .cdcValidate s = .next s) ∧
    ((s.work.par.N % s.work.par.u ≠ 0 ∨ s.work.par.N / s.work.par.u % 2 ≠ 0) →
      exec .cdcValidate s = .next { s with outcome := .wrongInputSize, phase := .respond }) ∧
    (validLength s.work.par.w s.work.par.N = true ↔ s.work.par.N % (2 * s.work.par.u) = 0)

/-- R191: CDC.SPLIT by its code; it completes when the bytes of the whole words are supplied: word k is the u bytes at
addresses k*u on, little-endian, and only the word list and the model's counter change. With N a multiple of u those are
all the words. Where N is no multiple of u the rule states no result: that the operation runs, and that words may follow
the whole ones (which ones is left open here), is the model's choice (notes/assumptions/22.md). -/
def Obligations.SplitResult : Prop :=
  decodeUnit 0x13 = .ok .cdcSplit ∧
  ∀ (s : State) (data : List Byte), s.din.readN 0 (s.work.par.N / s.work.par.u * s.work.par.u) = some data → ∃ t ws,
    exec .cdcSplit s = .next t ∧ s.work.par.N / s.work.par.u ≤ ws.length ∧
    (∀ k < s.work.par.N / s.work.par.u,
      ws[k]? = some (toReg (fromLE s.work.par.bits ((data.drop (k * s.work.par.u)).take s.work.par.u)))) ∧
    t = { s with work := s.work.setWords ws, draws := t.draws } ∧
    (s.work.par.N % s.work.par.u = 0 → ws.length = s.work.par.N / s.work.par.u ∧ t.draws = s.draws)

/-- R192: CDC.JOIN by its code; it completes on words that DOUT has room for: byte i of word k goes to address k*u + i,
every other byte of DOUT is as before, and nothing else changes. -/
def Obligations.JoinResult : Prop :=
  decodeUnit 0x14 = .ok .cdcJoin ∧
  ∀ s : State, s.work.ports.words.length * s.work.par.u ≤ s.work.par.N → ∃ m,
    exec .cdcJoin s = .next { s with dout := m } ∧
    (∀ k < s.work.ports.words.length, ∀ i < s.work.par.u,
      m.read (k * s.work.par.u + i) =
        some (BitVec.ofNat 8 ((toWord s.work.par.bits (s.work.ports.words[k]?.getD 0)).toNat / 2 ^ (8 * i)))) ∧
    s.dout.SameOutside m 0 (s.work.ports.words.length * s.work.par.u)

/-- R192, the derived equation: joining what has been split gives the bytes back. -/
def Obligations.JoinAfterSplit : Prop :=
  ∀ (w : Width) (bs : List Byte), bs.length % w.bytes = 0 →
    joinWords w (splitWords w (bs.length / w.bytes) bs) = bs

/-- R193: CDC.APPLY by its code; it completes: the list keeps its length, each consecutive pair of words becomes the
block function of the command's direction (the engine's only uses, notes/assumptions/18.md) of that pair alone, and only
the word list, A, B, RND, BLKN and the model's counter change. RND and BLKN are left open here. On an odd number of words
the rule states no result: that the operation runs, with the last word left open here, is the model's choice
(notes/assumptions/23.md). -/
def Obligations.ApplyResult : Prop :=
  decodeUnit 0x15 = .ok .cdcApply ∧
  ∀ s : State, ∃ t ws,
    exec .cdcApply s = .next t ∧ ws.length = s.work.ports.words.length ∧
    (∀ m < s.work.ports.words.length / 2,
      (ws[2 * m]?.getD 0, ws[2 * m + 1]?.getD 0) =
        Prod.map toReg toReg (blockFn s.work.par.dir s.work.par.r.toNat s.work.table
          (toWord s.work.par.bits (s.work.ports.words[2 * m]?.getD 0),
           toWord s.work.par.bits (s.work.ports.words[2 * m + 1]?.getD 0)))) ∧
    t = { s with
      work := { s.work.setWords ws with A := t.work.A, B := t.work.B, RND := t.work.RND, BLKN := t.work.BLKN }
      draws := t.draws } ∧
    (s.work.ports.words.length % 2 = 0 → t.draws = s.draws)

/-- Where a unit operation stops, by name: on an operand that names an entry or an address that does not exist
(notes/assumptions/13.md), and on a byte that is not there (notes/assumptions/8.md). All of this is the model's
choice. -/
def Obligations.UnitOperationStops : Prop :=
  ∀ s : State,
    (512 < s.work.ports.count → exec .seqTake s = .fault .noSuchEntry) ∧
    (s.keyBytes = none → exec .ksExpand s = .fault (.byteAbsent .key) ∧
      exec .ksSchedule s = .fault (.byteAbsent .key)) ∧
    (s.din.readN 0 (s.work.par.N / s.work.par.u * s.work.par.u) = none →
      exec .cdcSplit s = .fault (.byteAbsent .din)) ∧
    (s.work.par.N < s.work.ports.words.length * s.work.par.u → exec .cdcJoin s = .fault (.noSuchAddress .dout))

/-! ### The commands -/

/-- R194, R195: each of the ten commands (enc8, dec8, enc16, dec16, enc32, dec32, enc64, dec64, enc128, dec128)
completes, for every r, key and valid data that the host supplies, with status OK and the bytes of the request
transformed, which are DOUT[0..N-1]. Every other byte of DOUT, KEY, DIN, the request and the unit code are as before;
the working state is unspecified. -/
def Obligations.CommandAnswersOk : Prop :=
  ∀ (dir : Dir) (w : Width) (r : Nat) (key data : List Byte) (s : State),
    r ≤ 255 → key.length ≤ 255 → data.length % w.bytes = 0 → data.length / w.bytes % 2 = 0 → s.Supplies key data →
    ∃ t, exec (Instr.command dir w r key.length data.length) s = .next t ∧
      s.AnsweredBy t { status := .ok, out := transform dir w r key data }
        (s.dout.writeN 0 (transform dir w r key data))

/-- R220, R225: each of the ten commands answers WrongInputSize when a length test fails, whatever the key, the round
count, the direction and the bytes, supplied or not; DOUT is not written and no byte is returned. -/
def Obligations.CommandRaisesWrongInputSize : Prop :=
  ∀ (dir : Dir) (w : Width) (r klen len : Nat) (s : State), (len % w.bytes ≠ 0 ∨ len / w.bytes % 2 ≠ 0) →
    ∃ t, exec (Instr.command dir w r klen len) s = .next t ∧
      s.AnsweredBy t { status := .wrongInputSize, out := [] } s.dout

/-- R221, R223, R224: a word that spells no command is answered ILLEGAL_CMD, before LEN or any byte has an influence.
That this is a response and not a stop is the model's reading (notes/assumptions/3.md). -/
def Obligations.IllegalWordAnswer : Prop :=
  ∀ (s : State) (q : Request), s.usel = none → s.phase = .idle → s.req = some q →
    (q.cmd.extractLsb' 24 8 ≠ 0 ∨ q.cmd.extractLsb' 4 4 ≠ 0 ∨ 5 ≤ (q.cmd.extractLsb' 1 3).toNat) →
    ∃ t, step s = .next t ∧
      ({ s with req := none } : State).AnsweredBy t { status := .illegalCmd, out := [] } s.dout

/-- A byte that the host has not supplied stops a command that passes validation: the model's choice
(notes/assumptions/8.md). -/
def Obligations.UnsuppliedByteStops : Prop :=
  ∀ (dir : Dir) (w : Width) (r klen len : Nat) (s : State),
    klen ≤ 255 → len % w.bytes = 0 → len / w.bytes % 2 = 0 →
    (s.key.readN 0 klen = none → exec (Instr.command dir w r klen len) s = .fault (.byteAbsent .key)) ∧
    (∀ key, s.key.readN 0 klen = some key → s.din.readN 0 len = none →
      exec (Instr.command dir w r klen len) s = .fault (.byteAbsent .din))

/-- R196: a command that responds OK returns exactly N bytes. -/
def Obligations.OutputLengthIsInputLength : Prop :=
  ∀ (dir : Dir) (w : Width) (r klen len : Nat) (s t : State) (out : List Byte),
    exec (Instr.command dir w r klen len) s = .next t → t.resp = some { status := .ok, out := out } →
    out.length = len

/-- R53: what a command does to DOUT. With OK the bytes 0 to N-1 are the output, and every other byte is as before;
with a failure every byte is as before. -/
def Obligations.CommandWritesOnlyItsOutput : Prop :=
  ∀ (dir : Dir) (w : Width) (r klen len : Nat) (s t : State), exec (Instr.command dir w r klen len) s = .next t →
    ∃ p, t.resp = some p ∧
      (p.status = .ok → t.dout.readN 0 len = some p.out ∧ s.dout.SameOutside t.dout 0 len) ∧
      (p.status ≠ .ok → p.out = [] ∧ t.dout = s.dout)

/-- R58, R197: output block m is the block function of input block m, whose words are at addresses m*2u and m*2u + u;
no other byte of the input counts. -/
def Obligations.OutputBlockOfInputBlock : Prop :=
  ∀ (dir : Dir) (w : Width) (r : Nat) (key data : List Byte) (m : Nat),
    data.length % (2 * w.bytes) = 0 → m < data.length / (2 * w.bytes) →
    ((transform dir w r key data).drop (m * (2 * w.bytes))).take (2 * w.bytes) =
      joinWords w
        [(blockFn dir r (subkeys w r key)
            (fromLE w.bits ((data.drop (m * (2 * w.bytes))).take w.bytes),
             fromLE w.bits ((data.drop (m * (2 * w.bytes) + w.bytes)).take w.bytes))).1,
         (blockFn dir r (subkeys w r key)
            (fromLE w.bits ((data.drop (m * (2 * w.bytes))).take w.bytes),
             fromLE w.bits ((data.drop (m * (2 * w.bytes) + w.bytes)).take w.bytes))).2]

/-- R197, derived: the output for a buffer is the concatenation of the outputs for its parts. -/
def Obligations.NoChaining : Prop :=
  ∀ (dir : Dir) (w : Width) (r : Nat) (key d₁ d₂ : List Byte),
    d₁.length % (2 * w.bytes) = 0 → d₂.length % (2 * w.bytes) = 0 →
    transform dir w r key (d₁ ++ d₂) = transform dir w r key d₁ ++ transform dir w r key d₂

/-- R199: decode undoes encode, from any state that holds the same key and the encoded bytes. -/
def Obligations.DecodeUndoesEncode : Prop :=
  ∀ (w : Width) (r : Nat) (key data : List Byte) (s : State),
    r ≤ 255 → key.length ≤ 255 → data.length % (2 * w.bytes) = 0 → s.Supplies key data →
    ∃ t coded, exec (Instr.command .enc w r key.length data.length) s = .next t ∧
      t.resp = some { status := .ok, out := coded } ∧ coded.length = data.length ∧
      ∀ s' : State, s'.Supplies key coded →
        ∃ t', exec (Instr.command .dec w r key.length coded.length) s' = .next t' ∧
          t'.resp = some { status := .ok, out := data }

/-- R199, the derived other way round: encode undoes decode. -/
def Obligations.EncodeUndoesDecode : Prop :=
  ∀ (w : Width) (r : Nat) (key data : List Byte), data.length % (2 * w.bytes) = 0 →
    transform .enc w r key (transform .dec w r key data) = data

/-! ### The step -/

/-- A step runs the decoded instruction: the command a request spells, with the request taken; the unit operation the
sequencer names, with the code taken. With neither, an idle engine waits and stays as it is. -/
def Obligations.StepRunsTheDecodedInstruction : Prop :=
  ∀ s : State,
    (∀ q i, s.usel = none → s.phase = .idle → s.req = some q → decode (.command q.cmd q.len) = .ok i →
      step s = exec i { s with req := none }) ∧
    (∀ uop i, s.usel = some uop → decode (.unit uop) = .ok i → step s = exec i { s with usel := none }) ∧
    (s.usel = none → s.phase = .idle → s.req = none → step s = .next s)

/-- R13, R20, R200: a step on a request answers the response that is a function of the request alone, whatever the
rest of the state holds; the engine is idle and the request taken. The key and data bytes need be supplied only for a
legal word. -/
def Obligations.ResponseIsAFunctionOfTheRequest : Prop :=
  ∀ (s : State) (q : Request) (key data : List Byte),
    s.usel = none → s.phase = .idle → s.req = some q → data.length = q.len →
    (∀ f, decodeFields q.cmd = .ok f → key.length = f.b ∧ s.Supplies key data) →
    ∃ t, step s = .next t ∧ t.resp = some (answerRequest q.cmd key data) ∧ t.req = none ∧ t.phase = .idle ∧
      t.usel = none ∧ t.key = s.key ∧ t.din = s.din

/-- R20, R51, R52: two engines with the same request, the same key bytes below b and the same data bytes below N give
the same response, whatever else their states hold, bytes beyond those included. -/
def Obligations.OnlyTheRequestIsSeen : Prop :=
  ∀ (s₁ s₂ t₁ : State) (q : Request),
    s₁.usel = none → s₂.usel = none → s₁.phase = .idle → s₂.phase = .idle → s₁.req = some q → s₂.req = some q →
    (∀ a < (q.cmd.extractLsb' 16 8).toNat, s₁.key.read a = s₂.key.read a) →
    (∀ a < q.len, s₁.din.read a = s₂.din.read a) → step s₁ = .next t₁ →
    ∃ t₂, step s₂ = .next t₂ ∧ t₂.resp = t₁.resp

/-- R222: for every request of the ten commands whose bytes are supplied, the step completes and the engine responds
OK or WRONG_INPUT_SIZE, never anything else, and OK exactly when N mod (2u) = 0. -/
def Obligations.LegalRequestsAnswerOkOrWrongInputSize : Prop :=
  ∀ (s : State) (q : Request) (f : Fields) (key data : List Byte),
    s.usel = none → s.phase = .idle → s.req = some q → decodeFields q.cmd = .ok f → key.length = f.b →
    data.length = q.len → s.Supplies key data →
    ∃ t p, step s = .next t ∧ t.resp = some p ∧ (p.status = .ok ∨ p.status = .wrongInputSize) ∧
      (p.status = .ok ↔ q.len % (2 * f.w.bytes) = 0)

/-- R28: running the phases one after another from IDLE gives exactly what the atomic step gives, for every request,
legal or not, valid or not, supplied or not. -/
def Obligations.SequencerRefinesTheStep : Prop :=
  ∀ s : State, s.usel = none → s.phase = .idle → s.req.isSome →
    andThen (phaseStep s) (runPhases 6) = step s

/-- R28, R226: a step with no unit operation named that completes leaves the engine idle. That a single step from a state
inside a command, of a phase other than IDLE, runs on to the response is the model's choice (notes/assumptions/2.md):
R13's atomic step starts from no such state. -/
def Obligations.StepEndsIdle : Prop :=
  ∀ s t : State, s.usel = none → step s = .next t → t.phase = .idle ∧ t.usel = none

/-- R51, R52, R29: no instruction writes KEY, DIN or the request; no step writes KEY or DIN. -/
def Obligations.KeyAndDataAreNeverWritten : Prop :=
  (∀ (i : Instr) (s t : State), exec i s = .next t → t.key = s.key ∧ t.din = s.din ∧ t.req = s.req) ∧
  ∀ s t : State, step s = .next t → t.key = s.key ∧ t.din = s.din

/-- R97, R22, R23: a unit operation never changes the parameters of the command, never writes S at t or above (SEQ.TAKE
apart, whose count is its own operand) nor L at c or above, and never gives a response. Only CDC.SPLIT and CDC.APPLY draw
a free value (notes/assumptions/22.md, 23.md). -/
def Obligations.UnitOperationsKeepParametersAndBounds : Prop :=
  ∀ (i : Instr) (s t : State), isCommand i = false → exec i s = .next t →
    t.work.par = s.work.par ∧ t.resp = s.resp ∧ t.usel = s.usel ∧
    (i ≠ .cdcSplit → i ≠ .cdcApply → t.draws = s.draws) ∧
    (i ≠ .seqTake → ∀ k, s.work.par.t ≤ k → t.work.S.toList[k]? = s.work.S.toList[k]?) ∧
    (∀ k, s.work.par.c ≤ k → t.work.L.toList[k]? = s.work.L.toList[k]?)

/-- R22, R23, R24, R256: which unit operations write S, L and G, and that only CDC.JOIN writes DOUT and only
CDC.VALIDATE moves the phase. -/
def Obligations.TablesAreWrittenOnlyByTheirOperations : Prop :=
  ∀ (i : Instr) (s t : State), isCommand i = false → exec i s = .next t →
    (i ≠ .seqTake → i ≠ .ksMix → i ≠ .ksSchedule → t.work.S = s.work.S) ∧
    (i ≠ .ksExpand → i ≠ .ksMix → i ≠ .ksSchedule → t.work.L = s.work.L) ∧
    (i ≠ .seqRestart → i ≠ .seqNext → i ≠ .seqTake → i ≠ .ksMix → i ≠ .ksSchedule → t.work.G = s.work.G) ∧
    (i ≠ .cdcJoin → t.dout = s.dout) ∧
    (i ≠ .cdcValidate → t.phase = s.phase ∧ t.outcome = s.outcome)

/-! ### The invariant and reset -/

/-- Every step keeps the invariant, from every state that has it: the buffers stay in canonical form, and a response
that is not OK carries no bytes (R92). -/
def Obligations.StepKeepsTheInvariant : Prop :=
  ∀ s t : State, s.Inv → step s = .next t → t.Inv

/-- The invariant holds at reset. -/
def Obligations.ResetHasTheInvariant : Prop := State.reset.Inv

/-- R34, R250: after reset the engine is idle with no request and no response, and it does nothing until a request
arrives. -/
def Obligations.ResetIsIdle : Prop :=
  State.reset.phase = .idle ∧ State.reset.req = none ∧ State.reset.resp = none ∧
  step State.reset = .next State.reset

/-- R30, R92: the codes of the three statuses; 3 is never produced. -/
def Obligations.StatusCodes : Prop :=
  Status.ok.code = 0 ∧ Status.wrongInputSize.code = 1 ∧ Status.illegalCmd.code = 2 ∧ ∀ c : Status, c.code ≠ 3
end

