-- ==== Sys2Proof/Laws/Decode.lean ====
section
/-! SUPPORT. The fields of a command word that the encoder builds (`30_encoding.md` R81). -/

namespace Sys2Proof

/-- The bits of a command word put together from its fields, by field. -/
theorem fields_of_append (k q : BitVec 8) (s : BitVec 3) (d : BitVec 1) :
    (0#8 ++ k ++ q ++ 0#4 ++ s ++ d).extractLsb' 24 8 = 0 ∧ (0#8 ++ k ++ q ++ 0#4 ++ s ++ d).extractLsb' 4 4 = 0 ∧
      (0#8 ++ k ++ q ++ 0#4 ++ s ++ d).extractLsb' 16 8 = k ∧ (0#8 ++ k ++ q ++ 0#4 ++ s ++ d).extractLsb' 8 8 = q ∧
      (0#8 ++ k ++ q ++ 0#4 ++ s ++ d).extractLsb' 1 3 = s ∧ (0#8 ++ k ++ q ++ 0#4 ++ s ++ d).extractLsb' 0 1 = d := by
  refine ⟨?_, ?_, ?_, ?_, ?_, ?_⟩ <;> ext i hi <;>
    rw [BitVec.getElem_extractLsb', BitVec.getLsbD_eq_getElem (by omega)] <;>
    simp only [BitVec.getElem_append] <;> interval_cases i <;> simp

section
variable (dir : Dir) (w : Width) (r klen : Nat)

theorem commandWord_high : (commandWord dir w r klen).extractLsb' 24 8 = 0 := (fields_of_append _ _ _ _).1

theorem commandWord_zero : (commandWord dir w r klen).extractLsb' 4 4 = 0 := (fields_of_append _ _ _ _).2.1

theorem commandWord_klen : (commandWord dir w r klen).extractLsb' 16 8 = BitVec.ofNat 8 klen :=
  (fields_of_append _ _ _ _).2.2.1

theorem commandWord_r : (commandWord dir w r klen).extractLsb' 8 8 = BitVec.ofNat 8 r :=
  (fields_of_append _ _ _ _).2.2.2.1

theorem commandWord_sel : (commandWord dir w r klen).extractLsb' 1 3 = selOfWidth w :=
  (fields_of_append _ _ _ _).2.2.2.2.1

theorem commandWord_dir : (commandWord dir w r klen).extractLsb' 0 1 = dirBit dir :=
  (fields_of_append _ _ _ _).2.2.2.2.2

end

/-- WSEL and the width select each other (R83). -/
@[simp] theorem widthOfSel_selOfWidth (w : Width) : widthOfSel (selOfWidth w) = some w := by cases w <;> rfl

/-- A command word of the encoder is taken apart into its fields; r and the key length come back mod 256, what an
8-bit field holds. -/
theorem decodeFields_commandWord (dir : Dir) (w : Width) (r klen : Nat) :
    decodeFields (commandWord dir w r klen) = .ok { dir := dir, w := w, r := r % 256, b := klen % 256 } := by
  unfold decodeFields
  rw [commandWord_high, commandWord_zero, commandWord_klen, commandWord_r, commandWord_sel, commandWord_dir]
  cases dir <;> simp [dirBit]

/-- The encoder on the ten commands at once. -/
theorem encode_command (dir : Dir) (w : Width) (r klen len : Nat) :
    encode (Instr.command dir w r klen len) = .command (commandWord dir w r klen) len := by
  cases dir <;> cases w <;> rfl

/-- Well-formedness on the ten commands at once. -/
theorem wf_command (dir : Dir) (w : Width) (r klen len : Nat) :
    (Instr.command dir w r klen len).WellFormed ↔ r ≤ 255 ∧ klen ≤ 255 := by
  cases dir <;> cases w <;> simp [Instr.command, Instr.WellFormed, Instr.wf, okFields]

end Sys2Proof
end

