-- ==== Sys2Proof/Laws/Memory.lean ====
section
/-! SUPPORT. The byte buffers: reading after writing, the canonical form kept, runs of bytes. -/

namespace Sys2Proof.Machine

theorem Memory.read_write (m : Memory) (a : Nat) (v : Byte) (x : Nat) :
    (m.write a v).read x = if x = a then some v else m.read x := by
  induction m with
  | nil => simp [Memory.write, Memory.read]
  | cons c m ih =>
    obtain ⟨b, y⟩ := c
    by_cases h₁ : a < b
    · simp [Memory.write, h₁, Memory.read]
    · by_cases h₂ : a = b
      · subst h₂
        by_cases hx : x = a <;> simp [Memory.write, Memory.read, hx]
      · by_cases hb : x = b
        · have : ¬ x = a := by omega
          simp [Memory.write, h₁, h₂, Memory.read, hb]; intro h; omega
        · simp [Memory.write, h₁, h₂, Memory.read, hb, ih]

/-- An address below every listed one holds no byte. -/
theorem Memory.read_of_lt {m : Memory} {x : Nat} (h : ∀ c ∈ m, x < c.1) : m.read x = none := by
  induction m with
  | nil => rfl
  | cons c m ih =>
    obtain ⟨b, y⟩ := c
    have hb : x < b := h (b, y) (by simp)
    simp only [Memory.read]
    rw [if_neg (by omega), ih (fun c hc => h c (by simp [hc]))]

theorem Memory.mem_write {m : Memory} {a : Nat} {v : Byte} {c : Host.Cell} (h : c ∈ m.write a v) :
    c = (a, v) ∨ c ∈ m := by
  induction m with
  | nil => simpa [Memory.write] using h
  | cons d m ih =>
    obtain ⟨b, y⟩ := d
    unfold Memory.write at h
    split_ifs at h with h₁ h₂
    · simpa using h
    · rcases List.mem_cons.1 h with h | h
      · exact .inl h
      · exact .inr (by simp [h])
    · rcases List.mem_cons.1 h with h | h
      · exact .inr (by simp [h])
      · rcases ih h with h | h
        · exact .inl h
        · exact .inr (by simp [h])

theorem Memory.write_wf {m : Memory} (h : m.wf) (a : Nat) (v : Byte) : (m.write a v).wf := by
  induction m with
  | nil => simp [Memory.write]
  | cons c m ih =>
    obtain ⟨b, y⟩ := c
    have hm := List.pairwise_cons.1 h
    unfold Memory.write
    split_ifs with h₁ h₂
    · refine List.pairwise_cons.2 ⟨fun d hd => ?_, h⟩
      rcases List.mem_cons.1 hd with rfl | hd
      · exact h₁
      · exact Nat.lt_trans h₁ (hm.1 d hd)
    · subst h₂; exact List.pairwise_cons.2 ⟨hm.1, hm.2⟩
    · refine List.pairwise_cons.2 ⟨fun d hd => ?_, ih hm.2⟩
      rcases Memory.mem_write hd with rfl | hd
      · show b < a; omega
      · exact hm.1 d hd

theorem Memory.writeN_wf {m : Memory} (h : m.wf) (a : Nat) (bs : List Byte) : (m.writeN a bs).wf := by
  induction bs generalizing m a with
  | nil => exact h
  | cons v vs ih => exact ih (Memory.write_wf h a v) (a + 1)

/-- R57: what a run of bytes written reads as, and that nothing else changed. -/
theorem Memory.read_writeN (m : Memory) (a : Nat) (bs : List Byte) (x : Nat) :
    (m.writeN a bs).read x = if a ≤ x ∧ x < a + bs.length then bs[x - a]? else m.read x := by
  induction bs generalizing m a with
  | nil => simp [Memory.writeN]
  | cons v vs ih =>
    simp only [Memory.writeN, ih, Memory.read_write, List.length_cons]
    by_cases h₁ : a + 1 ≤ x ∧ x < a + 1 + vs.length
    · rw [if_pos h₁, if_pos (by omega), show x - a = (x - (a + 1)) + 1 by omega, List.getElem?_cons_succ]
    · rw [if_neg h₁]
      by_cases h₂ : x = a
      · subst h₂; simp
      · rw [if_neg h₂, if_neg (by omega)]

theorem Memory.writeN_sameOutside (m : Memory) (a : Nat) (bs : List Byte) :
    m.SameOutside (m.writeN a bs) a bs.length := by
  intro x hx
  rw [Memory.read_writeN, if_neg (by omega)]

theorem Memory.writeN_append (m : Memory) (a : Nat) (xs ys : List Byte) :
    m.writeN a (xs ++ ys) = (m.writeN a xs).writeN (a + xs.length) ys := by
  induction xs generalizing m a with
  | nil => rfl
  | cons x xs ih =>
    simp only [List.cons_append, Memory.writeN, ih, List.length_cons]
    congr 1; omega

/-- R56: a run of bytes is read exactly when each of its bytes is there, and it lists them in address order. -/
theorem Memory.readN_eq_some {m : Memory} {a n : Nat} {bs : List Byte} :
    m.readN a n = some bs ↔ bs.length = n ∧ ∀ i < n, m.read (a + i) = bs[i]? := by
  induction n generalizing a bs with
  | zero => cases bs <;> simp [Memory.readN]
  | succ n ih =>
    simp only [Memory.readN]
    constructor
    · intro h
      split at h
      · rename_i v vs hv hvs
        obtain ⟨hl, hr⟩ := ih.1 hvs
        cases h
        refine ⟨by simp [hl], fun i hi => ?_⟩
        cases i with
        | zero => simpa using hv
        | succ i => simpa [Nat.add_assoc, Nat.add_comm 1 i] using hr i (by omega)
      · exact absurd h (by simp)
    · rintro ⟨hl, hr⟩
      cases bs with
      | nil => simp at hl
      | cons v vs =>
        have h0 : m.read a = some v := by simpa using hr 0 (by omega)
        have ht : m.readN (a + 1) n = some vs :=
          ih.2 ⟨by simpa using hl, fun i hi => by
            simpa [Nat.add_assoc, Nat.add_comm 1 i] using hr (i + 1) (by omega)⟩
        simp [h0, ht]

theorem Memory.readN_length {m : Memory} {a n : Nat} {bs : List Byte} (h : m.readN a n = some bs) :
    bs.length = n := (Memory.readN_eq_some.1 h).1

/-- Part of a run that is read is read. -/
theorem Memory.readN_part {m : Memory} {a n : Nat} {bs : List Byte} (h : m.readN a n = some bs) {k l : Nat}
    (hkl : k + l ≤ n) : m.readN (a + k) l = some ((bs.drop k).take l) := by
  obtain ⟨hl, hr⟩ := Memory.readN_eq_some.1 h
  refine Memory.readN_eq_some.2 ⟨by simp; omega, fun i hi => ?_⟩
  rw [Nat.add_assoc, hr (k + i) (by omega), List.getElem?_take_of_lt hi, List.getElem?_drop]

/-- A run read in two parts. -/
theorem Memory.readN_append {m : Memory} {a k l : Nat} {xs ys : List Byte} (hx : m.readN a k = some xs)
    (hy : m.readN (a + k) l = some ys) : m.readN a (k + l) = some (xs ++ ys) := by
  obtain ⟨hxl, hxr⟩ := Memory.readN_eq_some.1 hx
  obtain ⟨hyl, hyr⟩ := Memory.readN_eq_some.1 hy
  refine Memory.readN_eq_some.2 ⟨by simp [hxl, hyl], fun i hi => ?_⟩
  by_cases h : i < k
  · rw [hxr i h, List.getElem?_append_left (by omega)]
  · rw [List.getElem?_append_right (by omega), hxl, ← hyr (i - k) (by omega)]
    congr 1; omega

/-- What has been written is read back. -/
theorem Memory.readN_writeN (m : Memory) (a : Nat) (bs : List Byte) :
    (m.writeN a bs).readN a bs.length = some bs :=
  Memory.readN_eq_some.2 ⟨rfl, fun i hi => by
    rw [Memory.read_writeN, if_pos (by omega), Nat.add_sub_cancel_left]⟩

theorem Memory.ofBytes_le (a : Nat) (bs : List Byte) : ∀ c ∈ Memory.ofBytes a bs, a ≤ c.1 := by
  induction bs generalizing a with
  | nil => simp [Memory.ofBytes]
  | cons v vs ih =>
    intro c hc
    rcases List.mem_cons.1 hc with rfl | hc
    · exact Nat.le_refl a
    · exact Nat.le_of_succ_le (ih (a + 1) c hc)

theorem Memory.ofBytes_wf (a : Nat) (bs : List Byte) : (Memory.ofBytes a bs).wf := by
  induction bs generalizing a with
  | nil => simp [Memory.ofBytes]
  | cons v vs ih => exact List.pairwise_cons.2 ⟨fun c hc => Memory.ofBytes_le (a + 1) vs c hc, ih (a + 1)⟩

theorem Memory.read_ofBytes (a : Nat) (bs : List Byte) (i : Nat) : (Memory.ofBytes a bs).read (a + i) = bs[i]? := by
  induction bs generalizing a i with
  | nil => rfl
  | cons v vs ih =>
    cases i with
    | zero => simp [Memory.ofBytes, Memory.read]
    | succ i =>
      simp only [Memory.ofBytes, Memory.read]
      rw [if_neg (by omega), show a + (i + 1) = a + 1 + i by omega, ih, List.getElem?_cons_succ]

/-- The host's buffers hold what it supplied. -/
theorem Memory.readN_ofBytes (bs : List Byte) : (Memory.ofBytes 0 bs).readN 0 bs.length = some bs :=
  Memory.readN_eq_some.2 ⟨rfl, fun i _ => Memory.read_ofBytes 0 bs i⟩

end Sys2Proof.Machine
end

