-- ==== Sys2Proof/Laws/State.lean ====
section
/-! SUPPORT. One lemma per field per update of the state, true by rfl, so that no later proof unfolds a record
update. -/

namespace Sys2Proof.Machine

/-! ### State.takeRequest -/

@[simp] theorem State.takeRequest_req (s : State) : (s.takeRequest).req = none := rfl
@[simp] theorem State.takeRequest_resp (s : State) : (s.takeRequest).resp = s.resp := rfl
@[simp] theorem State.takeRequest_phase (s : State) : (s.takeRequest).phase = s.phase := rfl
@[simp] theorem State.takeRequest_outcome (s : State) : (s.takeRequest).outcome = s.outcome := rfl
@[simp] theorem State.takeRequest_usel (s : State) : (s.takeRequest).usel = s.usel := rfl
@[simp] theorem State.takeRequest_work (s : State) : (s.takeRequest).work = s.work := rfl
@[simp] theorem State.takeRequest_key (s : State) : (s.takeRequest).key = s.key := rfl
@[simp] theorem State.takeRequest_din (s : State) : (s.takeRequest).din = s.din := rfl
@[simp] theorem State.takeRequest_dout (s : State) : (s.takeRequest).dout = s.dout := rfl
@[simp] theorem State.takeRequest_draws (s : State) : (s.takeRequest).draws = s.draws := rfl

/-! ### start -/

@[simp] theorem start_req (p : Params) (s : State) : (start p s).req = s.req := rfl
@[simp] theorem start_resp (p : Params) (s : State) : (start p s).resp = none := rfl
@[simp] theorem start_phase (p : Params) (s : State) : (start p s).phase = .validate := rfl
@[simp] theorem start_outcome (p : Params) (s : State) : (start p s).outcome = .ok := rfl
@[simp] theorem start_usel (p : Params) (s : State) : (start p s).usel = s.usel := rfl
@[simp] theorem start_work (p : Params) (s : State) : (start p s).work = { s.work with par := p } := rfl
@[simp] theorem start_key (p : Params) (s : State) : (start p s).key = s.key := rfl
@[simp] theorem start_din (p : Params) (s : State) : (start p s).din = s.din := rfl
@[simp] theorem start_dout (p : Params) (s : State) : (start p s).dout = s.dout := rfl
@[simp] theorem start_draws (p : Params) (s : State) : (start p s).draws = s.draws := rfl

/-! ### raise -/

@[simp] theorem raise_req (c : Status) (s : State) : (raise c s).req = s.req := rfl
@[simp] theorem raise_resp (c : Status) (s : State) : (raise c s).resp = s.resp := rfl
@[simp] theorem raise_phase (c : Status) (s : State) : (raise c s).phase = .respond := rfl
@[simp] theorem raise_outcome (c : Status) (s : State) : (raise c s).outcome = c := rfl
@[simp] theorem raise_usel (c : Status) (s : State) : (raise c s).usel = s.usel := rfl
@[simp] theorem raise_work (c : Status) (s : State) : (raise c s).work = s.work := rfl
@[simp] theorem raise_key (c : Status) (s : State) : (raise c s).key = s.key := rfl
@[simp] theorem raise_din (c : Status) (s : State) : (raise c s).din = s.din := rfl
@[simp] theorem raise_dout (c : Status) (s : State) : (raise c s).dout = s.dout := rfl
@[simp] theorem raise_draws (c : Status) (s : State) : (raise c s).draws = s.draws := rfl

/-! ### State.release -/

@[simp] theorem State.release_req (s : State) : (s.release).req = s.req := rfl
@[simp] theorem State.release_resp (s : State) : (s.release).resp = s.resp := rfl
@[simp] theorem State.release_phase (s : State) : (s.release).phase = .idle := rfl
@[simp] theorem State.release_outcome (s : State) : (s.release).outcome = s.outcome := rfl
@[simp] theorem State.release_usel (s : State) : (s.release).usel = s.usel := rfl
@[simp] theorem State.release_work (s : State) : (s.release).work = Config.freeWorking s.draws := rfl
@[simp] theorem State.release_key (s : State) : (s.release).key = s.key := rfl
@[simp] theorem State.release_din (s : State) : (s.release).din = s.din := rfl
@[simp] theorem State.release_dout (s : State) : (s.release).dout = s.dout := rfl
@[simp] theorem State.release_draws (s : State) : (s.release).draws = s.draws + 1 := rfl

/-! ### State.failWith -/

@[simp] theorem State.failWith_req (c : Status) (s : State) : (s.failWith c).req = s.req := rfl
@[simp] theorem State.failWith_resp (c : Status) (s : State) : (s.failWith c).resp = some { status := c, out := [] } := rfl
@[simp] theorem State.failWith_phase (c : Status) (s : State) : (s.failWith c).phase = .idle := rfl
@[simp] theorem State.failWith_outcome (c : Status) (s : State) : (s.failWith c).outcome = s.outcome := rfl
@[simp] theorem State.failWith_usel (c : Status) (s : State) : (s.failWith c).usel = s.usel := rfl
@[simp] theorem State.failWith_work (c : Status) (s : State) : (s.failWith c).work = Config.freeWorking s.draws := rfl
@[simp] theorem State.failWith_key (c : Status) (s : State) : (s.failWith c).key = s.key := rfl
@[simp] theorem State.failWith_din (c : Status) (s : State) : (s.failWith c).din = s.din := rfl
@[simp] theorem State.failWith_dout (c : Status) (s : State) : (s.failWith c).dout = s.dout := rfl
@[simp] theorem State.failWith_draws (c : Status) (s : State) : (s.failWith c).draws = s.draws + 1 := rfl

/-! ### State.onWork -/

@[simp] theorem State.onWork_req (s : State) (f : Working → Working) : (s.onWork f).req = s.req := rfl
@[simp] theorem State.onWork_resp (s : State) (f : Working → Working) : (s.onWork f).resp = s.resp := rfl
@[simp] theorem State.onWork_phase (s : State) (f : Working → Working) : (s.onWork f).phase = s.phase := rfl
@[simp] theorem State.onWork_outcome (s : State) (f : Working → Working) : (s.onWork f).outcome = s.outcome := rfl
@[simp] theorem State.onWork_usel (s : State) (f : Working → Working) : (s.onWork f).usel = s.usel := rfl
@[simp] theorem State.onWork_work (s : State) (f : Working → Working) : (s.onWork f).work = f s.work := rfl
@[simp] theorem State.onWork_key (s : State) (f : Working → Working) : (s.onWork f).key = s.key := rfl
@[simp] theorem State.onWork_din (s : State) (f : Working → Working) : (s.onWork f).din = s.din := rfl
@[simp] theorem State.onWork_dout (s : State) (f : Working → Working) : (s.onWork f).dout = s.dout := rfl
@[simp] theorem State.onWork_draws (s : State) (f : Working → Working) : (s.onWork f).draws = s.draws := rfl

/-! ### State.draw -/

@[simp] theorem State.draw_req (s : State) : (s.draw).req = s.req := rfl
@[simp] theorem State.draw_resp (s : State) : (s.draw).resp = s.resp := rfl
@[simp] theorem State.draw_phase (s : State) : (s.draw).phase = s.phase := rfl
@[simp] theorem State.draw_outcome (s : State) : (s.draw).outcome = s.outcome := rfl
@[simp] theorem State.draw_usel (s : State) : (s.draw).usel = s.usel := rfl
@[simp] theorem State.draw_work (s : State) : (s.draw).work = s.work := rfl
@[simp] theorem State.draw_key (s : State) : (s.draw).key = s.key := rfl
@[simp] theorem State.draw_din (s : State) : (s.draw).din = s.din := rfl
@[simp] theorem State.draw_dout (s : State) : (s.draw).dout = s.dout := rfl
@[simp] theorem State.draw_draws (s : State) : (s.draw).draws = s.draws + 1 := rfl

/-! ### State.withRequest -/

@[simp] theorem State.withRequest_req (q : Request) (key data : List Byte) (s : State) : (s.withRequest q key data).req = some q := rfl
@[simp] theorem State.withRequest_resp (q : Request) (key data : List Byte) (s : State) : (s.withRequest q key data).resp = s.resp := rfl
@[simp] theorem State.withRequest_phase (q : Request) (key data : List Byte) (s : State) : (s.withRequest q key data).phase = s.phase := rfl
@[simp] theorem State.withRequest_outcome (q : Request) (key data : List Byte) (s : State) : (s.withRequest q key data).outcome = s.outcome := rfl
@[simp] theorem State.withRequest_usel (q : Request) (key data : List Byte) (s : State) : (s.withRequest q key data).usel = s.usel := rfl
@[simp] theorem State.withRequest_work (q : Request) (key data : List Byte) (s : State) : (s.withRequest q key data).work = s.work := rfl
@[simp] theorem State.withRequest_key (q : Request) (key data : List Byte) (s : State) : (s.withRequest q key data).key = Memory.ofBytes 0 key := rfl
@[simp] theorem State.withRequest_din (q : Request) (key data : List Byte) (s : State) : (s.withRequest q key data).din = Memory.ofBytes 0 data := rfl
@[simp] theorem State.withRequest_dout (q : Request) (key data : List Byte) (s : State) : (s.withRequest q key data).dout = s.dout := rfl
@[simp] theorem State.withRequest_draws (q : Request) (key data : List Byte) (s : State) : (s.withRequest q key data).draws = s.draws := rfl

/-! ### State.answered -/

@[simp] theorem State.answered_req (s : State) (p : Response) (m : Memory) : (s.answered p m).req = s.req := rfl
@[simp] theorem State.answered_resp (s : State) (p : Response) (m : Memory) : (s.answered p m).resp = some p := rfl
@[simp] theorem State.answered_phase (s : State) (p : Response) (m : Memory) : (s.answered p m).phase = .idle := rfl
@[simp] theorem State.answered_outcome (s : State) (p : Response) (m : Memory) : (s.answered p m).outcome = p.status := rfl
@[simp] theorem State.answered_usel (s : State) (p : Response) (m : Memory) : (s.answered p m).usel = s.usel := rfl
@[simp] theorem State.answered_work (s : State) (p : Response) (m : Memory) : (s.answered p m).work = Config.freeWorking s.draws := rfl
@[simp] theorem State.answered_key (s : State) (p : Response) (m : Memory) : (s.answered p m).key = s.key := rfl
@[simp] theorem State.answered_din (s : State) (p : Response) (m : Memory) : (s.answered p m).din = s.din := rfl
@[simp] theorem State.answered_dout (s : State) (p : Response) (m : Memory) : (s.answered p m).dout = m := rfl
@[simp] theorem State.answered_draws (s : State) (p : Response) (m : Memory) : (s.answered p m).draws = s.draws + 1 := rfl

/-! ### Working.setOut -/

@[simp] theorem Working.setOut_A {w : Nat} (wk : Working) (x : BitVec w) : (wk.setOut x).A = wk.A := rfl
@[simp] theorem Working.setOut_B {w : Nat} (wk : Working) (x : BitVec w) : (wk.setOut x).B = wk.B := rfl
@[simp] theorem Working.setOut_G {w : Nat} (wk : Working) (x : BitVec w) : (wk.setOut x).G = wk.G := rfl
@[simp] theorem Working.setOut_I {w : Nat} (wk : Working) (x : BitVec w) : (wk.setOut x).I = wk.I := rfl
@[simp] theorem Working.setOut_J {w : Nat} (wk : Working) (x : BitVec w) : (wk.setOut x).J = wk.J := rfl
@[simp] theorem Working.setOut_S {w : Nat} (wk : Working) (x : BitVec w) : (wk.setOut x).S = wk.S := rfl
@[simp] theorem Working.setOut_L {w : Nat} (wk : Working) (x : BitVec w) : (wk.setOut x).L = wk.L := rfl
@[simp] theorem Working.setOut_KIDX {w : Nat} (wk : Working) (x : BitVec w) : (wk.setOut x).KIDX = wk.KIDX := rfl
@[simp] theorem Working.setOut_MITER {w : Nat} (wk : Working) (x : BitVec w) : (wk.setOut x).MITER = wk.MITER := rfl
@[simp] theorem Working.setOut_RND {w : Nat} (wk : Working) (x : BitVec w) : (wk.setOut x).RND = wk.RND := rfl
@[simp] theorem Working.setOut_BLKN {w : Nat} (wk : Working) (x : BitVec w) : (wk.setOut x).BLKN = wk.BLKN := rfl
@[simp] theorem Working.setOut_SIDX {w : Nat} (wk : Working) (x : BitVec w) : (wk.setOut x).SIDX = wk.SIDX := rfl
@[simp] theorem Working.setOut_par {w : Nat} (wk : Working) (x : BitVec w) : (wk.setOut x).par = wk.par := rfl
@[simp] theorem Working.setOut_ports_a {w : Nat} (wk : Working) (x : BitVec w) : (wk.setOut x).ports.a = wk.ports.a := rfl
@[simp] theorem Working.setOut_ports_b {w : Nat} (wk : Working) (x : BitVec w) : (wk.setOut x).ports.b = wk.ports.b := rfl
@[simp] theorem Working.setOut_ports_amount {w : Nat} (wk : Working) (x : BitVec w) : (wk.setOut x).ports.amount = wk.ports.amount := rfl
@[simp] theorem Working.setOut_ports_byte {w : Nat} (wk : Working) (x : BitVec w) : (wk.setOut x).ports.byte = wk.ports.byte := rfl
@[simp] theorem Working.setOut_ports_lanes {w : Nat} (wk : Working) (x : BitVec w) : (wk.setOut x).ports.lanes = wk.ports.lanes := rfl
@[simp] theorem Working.setOut_ports_count {w : Nat} (wk : Working) (x : BitVec w) : (wk.setOut x).ports.count = wk.ports.count := rfl
@[simp] theorem Working.setOut_ports_words {w : Nat} (wk : Working) (x : BitVec w) : (wk.setOut x).ports.words = wk.ports.words := rfl
@[simp] theorem Working.setOut_ports_out {w : Nat} (wk : Working) (x : BitVec w) : (wk.setOut x).ports.out = toReg x := rfl

/-! ### Working.setLanes -/

@[simp] theorem Working.setLanes_A (wk : Working) (bs : List Byte) : (wk.setLanes bs).A = wk.A := rfl
@[simp] theorem Working.setLanes_B (wk : Working) (bs : List Byte) : (wk.setLanes bs).B = wk.B := rfl
@[simp] theorem Working.setLanes_G (wk : Working) (bs : List Byte) : (wk.setLanes bs).G = wk.G := rfl
@[simp] theorem Working.setLanes_I (wk : Working) (bs : List Byte) : (wk.setLanes bs).I = wk.I := rfl
@[simp] theorem Working.setLanes_J (wk : Working) (bs : List Byte) : (wk.setLanes bs).J = wk.J := rfl
@[simp] theorem Working.setLanes_S (wk : Working) (bs : List Byte) : (wk.setLanes bs).S = wk.S := rfl
@[simp] theorem Working.setLanes_L (wk : Working) (bs : List Byte) : (wk.setLanes bs).L = wk.L := rfl
@[simp] theorem Working.setLanes_KIDX (wk : Working) (bs : List Byte) : (wk.setLanes bs).KIDX = wk.KIDX := rfl
@[simp] theorem Working.setLanes_MITER (wk : Working) (bs : List Byte) : (wk.setLanes bs).MITER = wk.MITER := rfl
@[simp] theorem Working.setLanes_RND (wk : Working) (bs : List Byte) : (wk.setLanes bs).RND = wk.RND := rfl
@[simp] theorem Working.setLanes_BLKN (wk : Working) (bs : List Byte) : (wk.setLanes bs).BLKN = wk.BLKN := rfl
@[simp] theorem Working.setLanes_SIDX (wk : Working) (bs : List Byte) : (wk.setLanes bs).SIDX = wk.SIDX := rfl
@[simp] theorem Working.setLanes_par (wk : Working) (bs : List Byte) : (wk.setLanes bs).par = wk.par := rfl
@[simp] theorem Working.setLanes_ports_a (wk : Working) (bs : List Byte) : (wk.setLanes bs).ports.a = wk.ports.a := rfl
@[simp] theorem Working.setLanes_ports_b (wk : Working) (bs : List Byte) : (wk.setLanes bs).ports.b = wk.ports.b := rfl
@[simp] theorem Working.setLanes_ports_amount (wk : Working) (bs : List Byte) : (wk.setLanes bs).ports.amount = wk.ports.amount := rfl
@[simp] theorem Working.setLanes_ports_byte (wk : Working) (bs : List Byte) : (wk.setLanes bs).ports.byte = wk.ports.byte := rfl
@[simp] theorem Working.setLanes_ports_lanes (wk : Working) (bs : List Byte) : (wk.setLanes bs).ports.lanes = overlay wk.ports.lanes bs := rfl
@[simp] theorem Working.setLanes_ports_count (wk : Working) (bs : List Byte) : (wk.setLanes bs).ports.count = wk.ports.count := rfl
@[simp] theorem Working.setLanes_ports_words (wk : Working) (bs : List Byte) : (wk.setLanes bs).ports.words = wk.ports.words := rfl
@[simp] theorem Working.setLanes_ports_out (wk : Working) (bs : List Byte) : (wk.setLanes bs).ports.out = wk.ports.out := rfl

/-! ### Working.setWords -/

@[simp] theorem Working.setWords_A (wk : Working) (ws : List Reg) : (wk.setWords ws).A = wk.A := rfl
@[simp] theorem Working.setWords_B (wk : Working) (ws : List Reg) : (wk.setWords ws).B = wk.B := rfl
@[simp] theorem Working.setWords_G (wk : Working) (ws : List Reg) : (wk.setWords ws).G = wk.G := rfl
@[simp] theorem Working.setWords_I (wk : Working) (ws : List Reg) : (wk.setWords ws).I = wk.I := rfl
@[simp] theorem Working.setWords_J (wk : Working) (ws : List Reg) : (wk.setWords ws).J = wk.J := rfl
@[simp] theorem Working.setWords_S (wk : Working) (ws : List Reg) : (wk.setWords ws).S = wk.S := rfl
@[simp] theorem Working.setWords_L (wk : Working) (ws : List Reg) : (wk.setWords ws).L = wk.L := rfl
@[simp] theorem Working.setWords_KIDX (wk : Working) (ws : List Reg) : (wk.setWords ws).KIDX = wk.KIDX := rfl
@[simp] theorem Working.setWords_MITER (wk : Working) (ws : List Reg) : (wk.setWords ws).MITER = wk.MITER := rfl
@[simp] theorem Working.setWords_RND (wk : Working) (ws : List Reg) : (wk.setWords ws).RND = wk.RND := rfl
@[simp] theorem Working.setWords_BLKN (wk : Working) (ws : List Reg) : (wk.setWords ws).BLKN = wk.BLKN := rfl
@[simp] theorem Working.setWords_SIDX (wk : Working) (ws : List Reg) : (wk.setWords ws).SIDX = wk.SIDX := rfl
@[simp] theorem Working.setWords_par (wk : Working) (ws : List Reg) : (wk.setWords ws).par = wk.par := rfl
@[simp] theorem Working.setWords_ports_a (wk : Working) (ws : List Reg) : (wk.setWords ws).ports.a = wk.ports.a := rfl
@[simp] theorem Working.setWords_ports_b (wk : Working) (ws : List Reg) : (wk.setWords ws).ports.b = wk.ports.b := rfl
@[simp] theorem Working.setWords_ports_amount (wk : Working) (ws : List Reg) : (wk.setWords ws).ports.amount = wk.ports.amount := rfl
@[simp] theorem Working.setWords_ports_byte (wk : Working) (ws : List Reg) : (wk.setWords ws).ports.byte = wk.ports.byte := rfl
@[simp] theorem Working.setWords_ports_lanes (wk : Working) (ws : List Reg) : (wk.setWords ws).ports.lanes = wk.ports.lanes := rfl
@[simp] theorem Working.setWords_ports_count (wk : Working) (ws : List Reg) : (wk.setWords ws).ports.count = wk.ports.count := rfl
@[simp] theorem Working.setWords_ports_words (wk : Working) (ws : List Reg) : (wk.setWords ws).ports.words = ws := rfl
@[simp] theorem Working.setWords_ports_out (wk : Working) (ws : List Reg) : (wk.setWords ws).ports.out = wk.ports.out := rfl

/-! ### Working.seqTake -/

@[simp] theorem Working.seqTake_A (t : Nat) (wk : Working) : (wk.seqTake t).A = wk.A := rfl
@[simp] theorem Working.seqTake_B (t : Nat) (wk : Working) : (wk.seqTake t).B = wk.B := rfl
@[simp] theorem Working.seqTake_G (t : Nat) (wk : Working) : (wk.seqTake t).G = toReg (seqTerm wk.par.w t) := rfl
@[simp] theorem Working.seqTake_I (t : Nat) (wk : Working) : (wk.seqTake t).I = wk.I := rfl
@[simp] theorem Working.seqTake_J (t : Nat) (wk : Working) : (wk.seqTake t).J = wk.J := rfl
@[simp] theorem Working.seqTake_S (t : Nat) (wk : Working) : (wk.seqTake t).S = writeWords wk.S (seqList wk.par.w t) := rfl
@[simp] theorem Working.seqTake_L (t : Nat) (wk : Working) : (wk.seqTake t).L = wk.L := rfl
@[simp] theorem Working.seqTake_KIDX (t : Nat) (wk : Working) : (wk.seqTake t).KIDX = wk.KIDX := rfl
@[simp] theorem Working.seqTake_MITER (t : Nat) (wk : Working) : (wk.seqTake t).MITER = wk.MITER := rfl
@[simp] theorem Working.seqTake_RND (t : Nat) (wk : Working) : (wk.seqTake t).RND = wk.RND := rfl
@[simp] theorem Working.seqTake_BLKN (t : Nat) (wk : Working) : (wk.seqTake t).BLKN = wk.BLKN := rfl
@[simp] theorem Working.seqTake_par (t : Nat) (wk : Working) : (wk.seqTake t).par = wk.par := rfl
@[simp] theorem Working.seqTake_ports (t : Nat) (wk : Working) : (wk.seqTake t).ports = wk.ports := rfl

/-! ### Working.expand -/

@[simp] theorem Working.expand_A (key : List Byte) (wk : Working) : (wk.expand key).A = wk.A := rfl
@[simp] theorem Working.expand_B (key : List Byte) (wk : Working) : (wk.expand key).B = wk.B := rfl
@[simp] theorem Working.expand_G (key : List Byte) (wk : Working) : (wk.expand key).G = wk.G := rfl
@[simp] theorem Working.expand_I (key : List Byte) (wk : Working) : (wk.expand key).I = wk.I := rfl
@[simp] theorem Working.expand_J (key : List Byte) (wk : Working) : (wk.expand key).J = wk.J := rfl
@[simp] theorem Working.expand_S (key : List Byte) (wk : Working) : (wk.expand key).S = wk.S := rfl
@[simp] theorem Working.expand_L (key : List Byte) (wk : Working) : (wk.expand key).L = writeWords wk.L (expandKey wk.par.w key) := rfl
@[simp] theorem Working.expand_MITER (key : List Byte) (wk : Working) : (wk.expand key).MITER = wk.MITER := rfl
@[simp] theorem Working.expand_RND (key : List Byte) (wk : Working) : (wk.expand key).RND = wk.RND := rfl
@[simp] theorem Working.expand_BLKN (key : List Byte) (wk : Working) : (wk.expand key).BLKN = wk.BLKN := rfl
@[simp] theorem Working.expand_SIDX (key : List Byte) (wk : Working) : (wk.expand key).SIDX = wk.SIDX := rfl
@[simp] theorem Working.expand_par (key : List Byte) (wk : Working) : (wk.expand key).par = wk.par := rfl
@[simp] theorem Working.expand_ports (key : List Byte) (wk : Working) : (wk.expand key).ports = wk.ports := rfl

/-! ### Working.mix -/

@[simp] theorem Working.mix_KIDX (wk : Working) : (wk.mix).KIDX = wk.KIDX := rfl
@[simp] theorem Working.mix_RND (wk : Working) : (wk.mix).RND = wk.RND := rfl
@[simp] theorem Working.mix_BLKN (wk : Working) : (wk.mix).BLKN = wk.BLKN := rfl
@[simp] theorem Working.mix_par (wk : Working) : (wk.mix).par = wk.par := rfl
@[simp] theorem Working.mix_ports (wk : Working) : (wk.mix).ports = wk.ports := rfl

/-! ### Working.blkEnc -/

@[simp] theorem Working.blkEnc_A (wk : Working) : (wk.blkEnc).A = toReg (encBlock wk.par.r.toNat wk.table wk.block).1 := rfl
@[simp] theorem Working.blkEnc_B (wk : Working) : (wk.blkEnc).B = toReg (encBlock wk.par.r.toNat wk.table wk.block).2 := rfl
@[simp] theorem Working.blkEnc_G (wk : Working) : (wk.blkEnc).G = wk.G := rfl
@[simp] theorem Working.blkEnc_I (wk : Working) : (wk.blkEnc).I = wk.I := rfl
@[simp] theorem Working.blkEnc_J (wk : Working) : (wk.blkEnc).J = wk.J := rfl
@[simp] theorem Working.blkEnc_S (wk : Working) : (wk.blkEnc).S = wk.S := rfl
@[simp] theorem Working.blkEnc_L (wk : Working) : (wk.blkEnc).L = wk.L := rfl
@[simp] theorem Working.blkEnc_KIDX (wk : Working) : (wk.blkEnc).KIDX = wk.KIDX := rfl
@[simp] theorem Working.blkEnc_MITER (wk : Working) : (wk.blkEnc).MITER = wk.MITER := rfl
@[simp] theorem Working.blkEnc_BLKN (wk : Working) : (wk.blkEnc).BLKN = wk.BLKN := rfl
@[simp] theorem Working.blkEnc_SIDX (wk : Working) : (wk.blkEnc).SIDX = wk.SIDX := rfl
@[simp] theorem Working.blkEnc_par (wk : Working) : (wk.blkEnc).par = wk.par := rfl
@[simp] theorem Working.blkEnc_ports (wk : Working) : (wk.blkEnc).ports = wk.ports := rfl

/-! ### Working.blkDec -/

@[simp] theorem Working.blkDec_A (wk : Working) : (wk.blkDec).A = toReg (decBlock wk.par.r.toNat wk.table wk.block).1 := rfl
@[simp] theorem Working.blkDec_B (wk : Working) : (wk.blkDec).B = toReg (decBlock wk.par.r.toNat wk.table wk.block).2 := rfl
@[simp] theorem Working.blkDec_G (wk : Working) : (wk.blkDec).G = wk.G := rfl
@[simp] theorem Working.blkDec_I (wk : Working) : (wk.blkDec).I = wk.I := rfl
@[simp] theorem Working.blkDec_J (wk : Working) : (wk.blkDec).J = wk.J := rfl
@[simp] theorem Working.blkDec_S (wk : Working) : (wk.blkDec).S = wk.S := rfl
@[simp] theorem Working.blkDec_L (wk : Working) : (wk.blkDec).L = wk.L := rfl
@[simp] theorem Working.blkDec_KIDX (wk : Working) : (wk.blkDec).KIDX = wk.KIDX := rfl
@[simp] theorem Working.blkDec_MITER (wk : Working) : (wk.blkDec).MITER = wk.MITER := rfl
@[simp] theorem Working.blkDec_BLKN (wk : Working) : (wk.blkDec).BLKN = wk.BLKN := rfl
@[simp] theorem Working.blkDec_SIDX (wk : Working) : (wk.blkDec).SIDX = wk.SIDX := rfl
@[simp] theorem Working.blkDec_par (wk : Working) : (wk.blkDec).par = wk.par := rfl
@[simp] theorem Working.blkDec_ports (wk : Working) : (wk.blkDec).ports = wk.ports := rfl

/-! ### andThen -/

@[simp] theorem andThen_next (s : State) (f : State → Result) : andThen (.next s) f = f s := rfl
@[simp] theorem andThen_fault (e : Fault) (f : State → Result) : andThen (.fault e) f = .fault e := rfl
@[simp] theorem andThen_refused (e : Refusal) (f : State → Result) : andThen (.refused e) f = .refused e := rfl

/-- A sequence answers a next state exactly when its first part does and the second does from there. -/
theorem andThen_eq_next {o : Result} {f : State → Result} {t : State} :
    andThen o f = .next t ↔ ∃ s, o = .next s ∧ f s = .next t := by
  cases o <;> simp [andThen]

end Sys2Proof.Machine
end

