-- ==== Sys2Proof/Laws/Words.lean ====
section
/-! SUPPORT. Words in registers, tables, lengths of lists. -/

namespace Sys2Proof.Machine

theorem Width.bits_le (w : Width) : w.bits ≤ 128 := by cases w <;> decide

theorem Width.bits_eq (w : Width) : w.bits = 8 * w.bytes := by cases w <;> rfl

theorem Width.bytes_pos (w : Width) : 0 < w.bytes := by cases w <;> decide

theorem Width.bytes_le (w : Width) : w.bytes ≤ 16 := by cases w <;> decide

/-- A word put in a register is read back. -/
theorem toWord_toReg {w : Nat} (h : w ≤ 128) (x : BitVec w) : toWord w (toReg x) = x := by
  apply BitVec.eq_of_toNat_eq
  simp only [toWord, toReg, BitVec.toNat_setWidth]
  have := x.isLt
  have : 2 ^ w ≤ 2 ^ 128 := Nat.pow_le_pow_right (by decide) h
  rw [Nat.mod_eq_of_lt (by omega : x.toNat < 2 ^ 128), Nat.mod_eq_of_lt (by omega)]

/-- Trimming a register leaves its word. -/
theorem toWord_trim {w : Nat} (h : w ≤ 128) (x : Reg) : toWord w (trim w x) = toWord w x := toWord_toReg h _

theorem map_toWord_toReg {w : Nat} (h : w ≤ 128) (xs : List (BitVec w)) : (xs.map toReg).map (toWord w) = xs := by
  rw [List.map_map]
  exact (List.map_congr_left (fun x _ => toWord_toReg h x)).trans (List.map_id xs)

theorem overlay_toList {α : Type} {k : Nat} (v : Vector α k) (xs : List α) :
    (overlay v xs).toList = (xs ++ v.toList.drop xs.length).take k := rfl

/-- An entry of an overlaid table: the list's entry where it reaches, the old one above. -/
theorem overlay_getElem? {α : Type} {k : Nat} (v : Vector α k) (xs : List α) (i : Nat) :
    (overlay v xs).toList[i]? = if i < k then (if i < xs.length then xs[i]? else v.toList[i]?) else none := by
  rw [overlay_toList]
  by_cases hk : i < k
  · rw [List.getElem?_take_of_lt hk, if_pos hk]
    by_cases hx : i < xs.length
    · rw [List.getElem?_append_left hx, if_pos hx]
    · rw [List.getElem?_append_right (by omega), List.getElem?_drop, if_neg hx]
      congr 1; omega
  · rw [if_neg hk, List.getElem?_eq_none (by simp; omega)]

/-- The first words of a table are the list written to it. -/
theorem readWords_writeWords {w k : Nat} (hw : w ≤ 128) (v : Vector Reg k) (ws : List (BitVec w)) {n : Nat}
    (hn : ws.length = n) (hk : n ≤ k) : readWords w n (writeWords v ws) = ws := by
  subst hn
  rw [readWords, writeWords, overlay_toList, List.take_take, Nat.min_eq_left hk, List.take_append_of_le_length (by simp),
    List.take_of_length_le (by simp), map_toWord_toReg hw]

theorem readWords_length {k : Nat} (w n : Nat) (v : Vector Reg k) (h : n ≤ k) : (readWords w n v).length = n := by
  simp [readWords, h]

/-- Entries from the list's length on are not written. -/
theorem writeWords_above {w k : Nat} (v : Vector Reg k) (ws : List (BitVec w)) {i : Nat} (h : ws.length ≤ i) :
    (writeWords v ws).toList[i]? = v.toList[i]? := by
  rw [writeWords, overlay_getElem?]
  by_cases hk : i < k
  · rw [if_pos hk, if_neg (by simp; omega)]
  · rw [if_neg hk, List.getElem?_eq_none (by simp; omega)]

/-- Entries below the list's length hold the list's words. -/
theorem writeWords_below {w k : Nat} (v : Vector Reg k) (ws : List (BitVec w)) {i : Nat} (h : i < ws.length)
    (hk : i < k) : (writeWords v ws).toList[i]? = (ws[i]?).map toReg := by
  rw [writeWords, overlay_getElem?, if_pos hk, if_pos (by simpa using h), List.getElem?_map]

/-! ### Lengths -/

@[simp] theorem toLE_length {w : Nat} (u : Nat) (x : BitVec w) : (toLE u x).length = u := by simp [toLE]

@[simp] theorem seqFrom_length (w : Width) (g : Word w) (n : Nat) : (seqFrom w g n).length = n := by
  induction n generalizing g with
  | zero => rfl
  | succ n ih => simp [seqFrom, ih]

@[simp] theorem seqList_length (w : Width) (t : Nat) : (seqList w t).length = t := seqFrom_length w _ t

@[simp] theorem expandStep_length {w : Nat} (u k : Nat) (v : Byte) (L : List (BitVec w)) :
    (expandStep u k v L).length = L.length := by simp [expandStep]

@[simp] theorem expandLoop_length {w : Nat} (u : Nat) (key : List Byte) (n : Nat) (L : List (BitVec w)) :
    (expandLoop u key n L).length = L.length := by
  induction n generalizing L with
  | zero => rfl
  | succ n ih => simp [expandLoop, ih]

@[simp] theorem expandKey_length (w : Width) (key : List Byte) :
    (expandKey w key).length = keyWords w.bytes key.length := by simp [expandKey]

@[simp] theorem mixStep_lengths {w : Nat} (t c : Nat) (m : Mix w) :
    (mixStep t c m).S.length = m.S.length ∧ (mixStep t c m).L.length = m.L.length := by simp [mixStep]

theorem mixLoop_lengths {w : Nat} (t c n : Nat) (m : Mix w) :
    (mixLoop t c n m).S.length = m.S.length ∧ (mixLoop t c n m).L.length = m.L.length := by
  induction n generalizing m with
  | zero => exact ⟨rfl, rfl⟩
  | succ n ih =>
    have h := ih (mixStep t c m)
    exact ⟨h.1.trans (mixStep_lengths t c m).1, h.2.trans (mixStep_lengths t c m).2⟩

theorem mixAll_lengths {w : Nat} (t c : Nat) (S L : List (BitVec w)) :
    (mixAll t c S L).S.length = S.length ∧ (mixAll t c S L).L.length = L.length := mixLoop_lengths t c _ _

@[simp] theorem splitWords_length (w : Width) (k : Nat) (bs : List Byte) : (splitWords w k bs).length = k := by
  induction k generalizing bs with
  | zero => rfl
  | succ k ih => simp [splitWords, ih]

@[simp] theorem joinWords_length (w : Width) (ws : List (Word w)) : (joinWords w ws).length = ws.length * w.bytes := by
  induction ws with
  | nil => simp [joinWords]
  | cons x xs ih =>
    have : joinWords w (x :: xs) = toLE w.bytes x ++ joinWords w xs := rfl
    rw [this, List.length_append, ih, toLE_length, List.length_cons]; ring

/-- The words of the whole pairs. -/
theorem applyPairs_length_pairs {w : Nat} (F : Block w → Block w) :
    ∀ ws : List (BitVec w), (applyPairs F ws).length = 2 * (ws.length / 2)
  | [] => by simp [applyPairs]
  | [_] => by simp [applyPairs]
  | a :: b :: ws => by
    have := applyPairs_length_pairs F ws
    simp only [applyPairs, List.length_cons, this]; omega

theorem applyPairs_length {w : Nat} (F : Block w → Block w) (ws : List (BitVec w)) (h : ws.length % 2 = 0) :
    (applyPairs F ws).length = ws.length := by
  rw [applyPairs_length_pairs]; omega

/-- t is at most 512: the table holds it (`00_scope.md` R8). -/
theorem Params.t_le (p : Params) : p.t ≤ 512 := by
  have := p.r.isLt
  unfold Params.t tableLen; omega

/-- c is at most 255: the array holds it (`00_scope.md` R8). -/
theorem Params.c_le (p : Params) : p.c ≤ 255 := by
  have := p.b.isLt
  unfold Params.c keyWords
  cases p.w <;> simp only [Width.bytes] <;> omega

theorem Params.c_pos (p : Params) : 0 < p.c := by unfold Params.c keyWords; omega

end Sys2Proof.Machine
end

