-- ==== Sys2Proof/Laws/Ops.lean ====
section
/-! SUPPORT. What each shared operation does, said once. -/

namespace Sys2Proof.Machine

/-! ### Responding -/

theorem respond_ok {s : State} {bs : List Byte} (ho : s.outcome = .ok)
    (hr : s.dout.readN 0 s.work.par.N = some bs) :
    respond s = .next (s.answered { status := .ok, out := bs } s.dout) := by
  simp only [respond, ho, hr, State.release, State.draw, State.answered]

theorem respond_fail {s : State} {c : Status} (hc : c ≠ .ok) :
    respond (raise c s) = .next (s.answered { status := c, out := [] } s.dout) := by
  cases c <;> first | exact absurd rfl hc | rfl

/-- If RESPOND answers a next state, the response is the status noted with the bytes of DOUT on OK and none
otherwise. -/
theorem respond_next {s t : State} (h : respond s = .next t) :
    ∃ bs, t = s.answered { status := s.outcome, out := bs } s.dout ∧
      (s.outcome = .ok → s.dout.readN 0 s.work.par.N = some bs) ∧ (s.outcome ≠ .ok → bs = []) := by
  unfold respond at h
  split at h
  · rename_i ho
    split at h
    · rename_i bs hr
      cases h
      exact ⟨bs, by simp only [State.release, State.draw, State.answered, ho], fun _ => hr, fun hn => absurd ho hn⟩
    · cases h
  · rename_i ho
    cases h
    exact ⟨[], by simp only [State.failWith, State.release, State.draw, State.answered, ho], fun hk => by simp [ho] at hk,
      fun _ => rfl⟩
  · rename_i ho
    cases h
    exact ⟨[], by simp only [State.failWith, State.release, State.draw, State.answered, ho], fun hk => by simp [ho] at hk,
      fun _ => rfl⟩

/-! ### The host's move -/

theorem present_some {s : State} (hr : s.req = none) (hp : s.phase = .idle) (q : Request) (key data : List Byte) :
    present q key data s = some (s.withRequest q key data) := if_pos ⟨hr, hp⟩

/-- The host has the move only when no request waits and no command runs. -/
theorem present_eq_some {s t : State} {q : Request} {key data : List Byte} :
    present q key data s = some t ↔ (s.req = none ∧ s.phase = .idle) ∧ t = s.withRequest q key data := by
  unfold present
  split
  · rename_i h; simp [h, eq_comm]
  · rename_i h; simp [h]

/-! ### The key bytes and the schedule -/

theorem execKsExpand_next {s t : State} (h : execKsExpand s = .next t) :
    ∃ key, s.keyBytes = some key ∧ t = s.onWork (Working.expand key) := by
  unfold execKsExpand at h
  split at h
  · rename_i key hk; cases h; exact ⟨key, hk, rfl⟩
  · cases h

theorem execKsExpand_some {s : State} {key : List Byte} (h : s.keyBytes = some key) :
    execKsExpand s = .next (s.onWork (Working.expand key)) := by simp [execKsExpand, h]

theorem execKsExpand_none {s : State} (h : s.keyBytes = none) : execKsExpand s = .fault (.byteAbsent .key) := by
  simp [execKsExpand, h]

/-- KS.MIX: the first t entries of S become the mixed table, the others stay; likewise L. -/
theorem Working.mix_tables (wk : Working) :
    let m := mixAll wk.par.t wk.par.c (seqList wk.par.w wk.par.t) (readWords wk.par.bits wk.par.c wk.L)
    readWords wk.par.bits wk.par.t wk.mix.S = m.S ∧ readWords wk.par.bits wk.par.c wk.mix.L = m.L ∧
      (∀ i, wk.par.t ≤ i → wk.mix.S.toList[i]? = wk.S.toList[i]?) ∧
      (∀ i, wk.par.c ≤ i → wk.mix.L.toList[i]? = wk.L.toList[i]?) := by
  intro m
  have hw := Width.bits_le wk.par.w
  have hS : readWords wk.par.bits wk.par.t (wk.seqTake wk.par.t).S = seqList wk.par.w wk.par.t :=
    readWords_writeWords hw _ _ (seqList_length _ _) wk.par.t_le
  have hm : mixAll wk.par.t wk.par.c (readWords wk.par.bits wk.par.t (wk.seqTake wk.par.t).S)
      (readWords wk.par.bits wk.par.c wk.L) = m := by rw [hS]
  have hSl : m.S.length = wk.par.t := (mixAll_lengths _ _ _ _).1.trans (seqList_length _ _)
  have hLl : m.L.length = wk.par.c := (mixAll_lengths _ _ _ _).2.trans (readWords_length _ _ _ wk.par.c_le)
  have eS : wk.mix.S = writeWords (wk.seqTake wk.par.t).S m.S := by rw [← hm]; rfl
  have eL : wk.mix.L = writeWords wk.L m.L := by rw [← hm]; rfl
  refine ⟨?_, ?_, fun i hi => ?_, fun i hi => ?_⟩
  · rw [eS]; exact readWords_writeWords hw _ _ hSl wk.par.t_le
  · rw [eL]; exact readWords_writeWords hw _ _ hLl wk.par.c_le
  · rw [eS, writeWords_above _ _ (by omega)]
    exact writeWords_above _ _ (by rw [seqList_length]; exact hi)
  · rw [eL, writeWords_above _ _ (by omega)]

/-- KS.EXPAND: the first c entries of L become the expanded key. -/
theorem Working.expand_table (wk : Working) {key : List Byte} (hb : key.length = wk.par.b.toNat) :
    readWords wk.par.bits wk.par.c (wk.expand key).L = expandKey wk.par.w key ∧
      ∀ i, wk.par.c ≤ i → (wk.expand key).L.toList[i]? = wk.L.toList[i]? := by
  have hl : (expandKey wk.par.w key).length = wk.par.c := by rw [expandKey_length, hb]
  exact ⟨readWords_writeWords (Width.bits_le _) _ _ hl wk.par.c_le,
    fun i hi => writeWords_above _ _ (by omega)⟩

/-! ### Words in the buffers -/

/-- The words loaded from a buffer are the split of its bytes. -/
theorem loadWords_eq_split (w : Width) {m : Memory} {a k : Nat} {bs : List Byte}
    (h : m.readN a (k * w.bytes) = some bs) : loadWords w m a k = some (splitWords w k bs) := by
  induction k generalizing a bs with
  | zero => rfl
  | succ k ih =>
    have hl := Memory.readN_length h
    have hs : (k + 1) * w.bytes = w.bytes + k * w.bytes := by ring
    have h₁ := Memory.readN_part h (k := 0) (l := w.bytes) (by omega)
    have h₂ := Memory.readN_part h (k := w.bytes) (l := k * w.bytes) (by omega)
    simp only [Nat.add_zero, List.drop_zero] at h₁
    rw [List.take_of_length_le (by simp; omega)] at h₂
    simp only [loadWords, h₁, ih h₂, splitWords]

/-- Words load only where every byte is there. -/
theorem loadWords_some (w : Width) {m : Memory} {a k : Nat} {ws : List (Word w)}
    (h : loadWords w m a k = some ws) : ∃ bs, m.readN a (k * w.bytes) = some bs := by
  induction k generalizing a ws with
  | zero => exact ⟨[], by simp [Memory.readN]⟩
  | succ k ih =>
    simp only [loadWords] at h
    split at h
    · rename_i bs xs hb hx
      obtain ⟨cs, hc⟩ := ih hx
      exact ⟨bs ++ cs, by rw [show (k + 1) * w.bytes = w.bytes + k * w.bytes by ring]
                          exact Memory.readN_append hb hc⟩
    · cases h

/-- Storing words is writing the joined bytes. -/
theorem storeWords_eq_writeN (w : Width) (m : Memory) (a : Nat) (ws : List (Word w)) :
    storeWords w m a ws = m.writeN a (joinWords w ws) := by
  induction ws generalizing m a with
  | nil => rfl
  | cons x xs ih =>
    have hj : joinWords w (x :: xs) = toLE w.bytes x ++ joinWords w xs := rfl
    rw [storeWords, ih, hj, Memory.writeN_append, toLE_length]

/-! ### The block loop -/

/-- Two working states that differ in A, B, RND and BLKN alone. -/
structure Working.SameButBlock (wk wk' : Working) : Prop where
  eq : wk' = { wk with A := wk'.A, B := wk'.B, RND := wk'.RND, BLKN := wk'.BLKN }

theorem Working.SameButBlock.refl (wk : Working) : wk.SameButBlock wk := ⟨rfl⟩

theorem Working.SameButBlock.trans {a b c : Working} (h₁ : a.SameButBlock b) (h₂ : b.SameButBlock c) :
    a.SameButBlock c := by
  constructor
  have e₁ := h₁.eq
  have e₂ := h₂.eq
  rw [e₁] at e₂
  exact e₂

theorem Working.SameButBlock.par {a b : Working} (h : a.SameButBlock b) : b.par = a.par := by rw [h.eq]

/-- BLK.ENC or BLK.DEC on a block in the registers: the block function of the direction, and nothing but A, B and RND
changes. -/
theorem Working.blk_spec (wk : Working) :
    wk.SameButBlock wk.blk ∧
      wk.blk.A = toReg (blockFn wk.par.dir wk.par.r.toNat wk.table wk.block).1 ∧
      wk.blk.B = toReg (blockFn wk.par.dir wk.par.r.toNat wk.table wk.block).2 := by
  unfold Working.blk blockFn
  cases wk.par.dir <;> exact ⟨⟨rfl⟩, rfl, rfl⟩

/-- CDC.APPLY with the block function of the direction: the pairs of words transformed, each alone. -/
theorem applyLoop_blk (par : Params) (S : Vector Reg 512) :
    ∀ (ws : List Reg) (m : Nat) (wk : Working), wk.par = par → wk.S = S →
      (applyLoop Working.blk m ws wk).1 =
          (applyPairs (blockFn par.dir par.r.toNat (readWords par.bits par.t S)) (ws.map (toWord par.bits))).map
            toReg ∧
        wk.SameButBlock (applyLoop Working.blk m ws wk).2
  | [], _, wk, _, _ => ⟨rfl, .refl wk⟩
  | [_], _, wk, _, _ => ⟨rfl, .refl wk⟩
  | a :: b :: ws, m, wk, hp, hS => by
    subst hp hS
    obtain ⟨hf, hA, hB⟩ := Working.blk_spec { wk with A := a, B := b, BLKN := m }
    have hload : wk.SameButBlock { wk with A := a, B := b, BLKN := m } := ⟨rfl⟩
    have hwk := hload.trans hf
    have ih := applyLoop_blk wk.par wk.S ws (m + 1) (Working.blk { wk with A := a, B := b, BLKN := m })
      (by rw [hwk.par]) (by rw [hwk.eq])
    simp only [applyLoop, applyPairs, List.map_cons, ih.1, hA, hB]
    exact ⟨rfl, hwk.trans ih.2⟩

/-! ### The codec -/

theorem validLength_iff (w : Width) (N : Nat) : validLength w N = true ↔ N % w.bytes = 0 ∧ N / w.bytes % 2 = 0 := by
  simp [validLength]

/-- CDC.SPLIT of whole words whose bytes are there, with the parameters under a name of their own. -/
theorem execCdcSplit_some {s : State} {p : Params} {bs : List Byte} (hp : s.work.par = p) (h : p.N % p.u = 0)
    (hd : s.din.readN 0 p.N = some bs) :
    execCdcSplit s = .next (s.onWork fun wk => wk.setWords ((splitWords p.w (p.N / p.u) bs).map toReg)) := by
  subst hp
  have hl : loadWords s.work.par.w s.din 0 (s.work.par.N / s.work.par.u) =
      some (splitWords s.work.par.w (s.work.par.N / s.work.par.u) bs) :=
    loadWords_eq_split _ (by rw [Nat.div_mul_cancel (Nat.dvd_of_mod_eq_zero h)]; exact hd)
  simp only [execCdcSplit, hl, h, if_true]

/-- CDC.SPLIT of a length that is not a whole number of words: the whole words, then a free list. -/
theorem execCdcSplit_partial {s : State} {p : Params} {bs : List Byte} (hp : s.work.par = p) (h : p.N % p.u ≠ 0)
    (hd : s.din.readN 0 (p.N / p.u * p.u) = some bs) :
    execCdcSplit s = .next (s.draw.onWork fun wk => wk.setWords
      ((splitWords p.w (p.N / p.u) bs).map toReg ++ (Config.freeWords s.draws).map (trim p.bits))) := by
  subst hp
  have hl : loadWords s.work.par.w s.din 0 (s.work.par.N / s.work.par.u) =
      some (splitWords s.work.par.w (s.work.par.N / s.work.par.u) bs) := loadWords_eq_split _ hd
  simp only [execCdcSplit, hl, h, if_false]

/-- CDC.SPLIT where a byte of a whole word is not there. -/
theorem execCdcSplit_none {s : State} {p : Params} (hp : s.work.par = p)
    (hd : s.din.readN 0 (p.N / p.u * p.u) = none) : execCdcSplit s = .fault (.byteAbsent .din) := by
  subst hp
  cases hl : loadWords s.work.par.w s.din 0 (s.work.par.N / s.work.par.u) with
  | none => simp only [execCdcSplit, hl]
  | some ws =>
    obtain ⟨bs, hb⟩ := loadWords_some _ hl
    exact absurd (hb.symm.trans hd) (by simp)

/-- All CDC.APPLY can do: the words of the whole pairs transformed, each pair alone, and nothing more on an even number
of words, a free word more on an odd one. -/
theorem execCdcApply_cases {s : State} {p : Params} (hp : s.work.par = p) :
    ∃ wk, (s.work.setWords wk.ports.words).SameButBlock wk ∧
      ((s.work.ports.words.length % 2 = 0 ∧ execCdcApply s = .next (s.onWork fun _ => wk) ∧
        wk.ports.words = (applyPairs (blockFn p.dir p.r.toNat (readWords p.bits p.t s.work.S))
          (s.work.ports.words.map (toWord p.bits))).map toReg) ∨
       (s.work.ports.words.length % 2 ≠ 0 ∧ execCdcApply s = .next (s.draw.onWork fun _ => wk) ∧
        wk.ports.words = (applyPairs (blockFn p.dir p.r.toNat (readWords p.bits p.t s.work.S))
          (s.work.ports.words.map (toWord p.bits))).map toReg ++ [trim p.bits (Config.freeWord s.draws)])) := by
  subst hp
  obtain ⟨hw, hs⟩ := applyLoop_blk s.work.par s.work.S s.work.ports.words 0 s.work rfl rfl
  have ha : (Working.apply Working.blk s.work).ports.words =
      (applyPairs (blockFn s.work.par.dir s.work.par.r.toNat (readWords s.work.par.bits s.work.par.t s.work.S))
        (s.work.ports.words.map (toWord s.work.par.bits))).map toReg := hw
  by_cases h : s.work.ports.words.length % 2 = 0
  · exact ⟨Working.apply Working.blk s.work,
      ⟨congrArg (fun x : Working => x.setWords (applyLoop Working.blk 0 s.work.ports.words s.work).1) hs.eq⟩,
      .inl ⟨h, by simp only [execCdcApply, h, if_true, State.onWork], ha⟩⟩
  · refine ⟨(Working.apply Working.blk s.work).setWords ((Working.apply Working.blk s.work).ports.words ++
      [trim s.work.par.bits (Config.freeWord s.draws)]),
      ⟨congrArg (fun x : Working => x.setWords ((applyLoop Working.blk 0 s.work.ports.words s.work).1 ++
        [trim s.work.par.bits (Config.freeWord s.draws)])) hs.eq⟩,
      .inr ⟨h, by simp only [execCdcApply, h, if_false, State.onWork, State.draw_work], ?_⟩⟩
    rw [Working.setWords_ports_words, ha]

/-- CDC.APPLY on an even number of words. -/
theorem execCdcApply_even {s : State} {p : Params} (hp : s.work.par = p) (h : s.work.ports.words.length % 2 = 0) :
    ∃ wk, execCdcApply s = .next (s.onWork fun _ => wk) ∧
      wk.ports.words = (applyPairs (blockFn p.dir p.r.toNat (readWords p.bits p.t s.work.S))
        (s.work.ports.words.map (toWord p.bits))).map toReg ∧
      (s.work.setWords wk.ports.words).SameButBlock wk := by
  obtain ⟨wk, hs, ⟨-, he, hw⟩ | ⟨ho, -, -⟩⟩ := execCdcApply_cases hp
  · exact ⟨wk, he, hw, hs⟩
  · exact absurd h ho

/-- CDC.JOIN of words that DOUT has room for. -/
theorem execCdcJoin_room {s : State} {p : Params} (hp : s.work.par = p)
    (h : s.work.ports.words.length * p.u ≤ p.N) :
    execCdcJoin s =
      .next { s with dout := s.dout.writeN 0 (joinWords p.w (s.work.ports.words.map (toWord p.bits))) } := by
  subst hp
  simp only [execCdcJoin, h, if_true, storeWords_eq_writeN]

end Sys2Proof.Machine
end

