-- ==== Sys2Proof/Laws/PerInstr.lean ====
section
/-! SUPPORT. One statement for every instruction, made per constructor: its code is its row of the opcode table,
whatever its operands (`30_encoding.md` R89, R90). -/

namespace Sys2Proof.Laws.TableRow

/-- The match word of a command's row, or the code UOP of a unit operation's row (R89, R90, the tables). -/
def row : Instr → Nat
  | .enc8 _ _ _ => 0x00
  | .dec8 _ _ _ => 0x01
  | .enc16 _ _ _ => 0x02
  | .dec16 _ _ _ => 0x03
  | .enc32 _ _ _ => 0x04
  | .dec32 _ _ _ => 0x05
  | .enc64 _ _ _ => 0x06
  | .dec64 _ _ _ => 0x07
  | .enc128 _ _ _ => 0x08
  | .dec128 _ _ _ => 0x09
  | .wAdd => 0x00
  | .wSub => 0x01
  | .wXor => 0x02
  | .wRotl => 0x03
  | .wRotr => 0x04
  | .wFromByte => 0x05
  | .wToLe => 0x06
  | .wFromLe => 0x07
  | .wConstP => 0x08
  | .wConstQ => 0x09
  | .seqRestart => 0x0A
  | .seqNext => 0x0B
  | .seqTake => 0x0C
  | .ksExpand => 0x0D
  | .ksMix => 0x0E
  | .ksSchedule => 0x0F
  | .blkEnc => 0x10
  | .blkDec => 0x11
  | .cdcValidate => 0x12
  | .cdcSplit => 0x13
  | .cdcJoin => 0x14
  | .cdcApply => 0x15

/-- The code of the instruction spells its own row: `W & mask = match` with the mask 0xFF0000FF of R89, or the code
of R90. -/
def Statement (i : Instr) : Prop :=
  match encode i with
  | .command cmd _ => cmd &&& 0xFF0000FF#32 = BitVec.ofNat 32 (row i)
  | .unit uop => uop = BitVec.ofNat 5 (row i)

/-- The bits that a row fixes, of a command word put together from its fields. -/
theorem mask_of_append (k q : BitVec 8) (s : BitVec 3) (d : BitVec 1) :
    (0#8 ++ k ++ q ++ 0#4 ++ s ++ d) &&& 0xFF0000FF#32 = (0#24 ++ (0#4 ++ s ++ d)) := by
  ext i hi
  simp only [BitVec.getElem_and, BitVec.getElem_append]
  have : i < 32 := hi
  interval_cases i <;> simp

/-- The bits that a row fixes, of a word the encoder builds. -/
theorem commandWord_and_mask (dir : Dir) (w : Width) (r klen : Nat) :
    commandWord dir w r klen &&& 0xFF0000FF#32 = BitVec.ofNat 32 (2 * (selOfWidth w).toNat + (dirBit dir).toNat) :=
  (mask_of_append _ _ _ _).trans (by cases dir <;> cases w <;> decide)

theorem enc8 (r klen len : Nat) : Statement (.enc8 r klen len) := commandWord_and_mask .enc .w8 r klen
theorem dec8 (r klen len : Nat) : Statement (.dec8 r klen len) := commandWord_and_mask .dec .w8 r klen
theorem enc16 (r klen len : Nat) : Statement (.enc16 r klen len) := commandWord_and_mask .enc .w16 r klen
theorem dec16 (r klen len : Nat) : Statement (.dec16 r klen len) := commandWord_and_mask .dec .w16 r klen
theorem enc32 (r klen len : Nat) : Statement (.enc32 r klen len) := commandWord_and_mask .enc .w32 r klen
theorem dec32 (r klen len : Nat) : Statement (.dec32 r klen len) := commandWord_and_mask .dec .w32 r klen
theorem enc64 (r klen len : Nat) : Statement (.enc64 r klen len) := commandWord_and_mask .enc .w64 r klen
theorem dec64 (r klen len : Nat) : Statement (.dec64 r klen len) := commandWord_and_mask .dec .w64 r klen
theorem enc128 (r klen len : Nat) : Statement (.enc128 r klen len) := commandWord_and_mask .enc .w128 r klen
theorem dec128 (r klen len : Nat) : Statement (.dec128 r klen len) := commandWord_and_mask .dec .w128 r klen
theorem wAdd : Statement .wAdd := rfl
theorem wSub : Statement .wSub := rfl
theorem wXor : Statement .wXor := rfl
theorem wRotl : Statement .wRotl := rfl
theorem wRotr : Statement .wRotr := rfl
theorem wFromByte : Statement .wFromByte := rfl
theorem wToLe : Statement .wToLe := rfl
theorem wFromLe : Statement .wFromLe := rfl
theorem wConstP : Statement .wConstP := rfl
theorem wConstQ : Statement .wConstQ := rfl
theorem seqRestart : Statement .seqRestart := rfl
theorem seqNext : Statement .seqNext := rfl
theorem seqTake : Statement .seqTake := rfl
theorem ksExpand : Statement .ksExpand := rfl
theorem ksMix : Statement .ksMix := rfl
theorem ksSchedule : Statement .ksSchedule := rfl
theorem blkEnc : Statement .blkEnc := rfl
theorem blkDec : Statement .blkDec := rfl
theorem cdcValidate : Statement .cdcValidate := rfl
theorem cdcSplit : Statement .cdcSplit := rfl
theorem cdcJoin : Statement .cdcJoin := rfl
theorem cdcApply : Statement .cdcApply := rfl

end Sys2Proof.Laws.TableRow
end

