-- ==== Sys2Proof/Tests/Slice0.lean ====
section
/-! SUPPORT. The model's own tests. Every expected value is from `95_test_vectors.md` (V<n>), from an example of the
rule named, or from the tables of `30_encoding.md`. -/

namespace Sys2Proof.Tests

open Sys2Proof.Machine

/-! ### WellFormed: each check refuses an ill-formed term (R93: "It rejects `r` above 255 and a key longer than
255 bytes") -/

theorem test_wf_rejects_rounds_256 : ¬ (Instr.enc32 256 16 8).WellFormed := by decide

theorem test_wf_rejects_key_256 : ¬ (Instr.dec128 12 256 32).WellFormed := by decide

theorem test_wf_accepts_255 : (Instr.enc32 255 255 7).WellFormed := by decide

/-! ### Decode: command words of V42, unit codes of R90 -/

theorem test_decode_enc8 : decodeCommand 0x00800100 4 = .ok (.enc8 1 128 4) := by decide

theorem test_decode_dec8 : decodeCommand 0x00800101 4 = .ok (.dec8 1 128 4) := by decide

theorem test_decode_enc16 : decodeCommand 0x00030202 8 = .ok (.enc16 2 3 8) := by decide

theorem test_decode_dec16 : decodeCommand 0x00030203 8 = .ok (.dec16 2 3 8) := by decide

theorem test_decode_enc32 : decodeCommand 0x00FFFF04 0 = .ok (.enc32 255 255 0) := by decide

theorem test_decode_dec32 : decodeCommand 0x00100C05 8 = .ok (.dec32 12 16 8) := by decide

theorem test_decode_enc64 : decodeCommand 0x00080106 16 = .ok (.enc64 1 8 16) := by decide

theorem test_decode_dec64 : decodeCommand 0x00080107 16 = .ok (.dec64 1 8 16) := by decide

theorem test_decode_enc128 : decodeCommand 0x00000108 32 = .ok (.enc128 1 0 32) := by decide

theorem test_decode_dec128 : decodeCommand 0x00FFFF09 0 = .ok (.dec128 255 255 0) := by decide

/-- V42, the illegal words. -/
theorem test_decode_illegal :
    [0x0000000A, 0x0000000B, 0x0000000C, 0x0000000F, 0x00000014, 0x00000084, 0x01000004, 0x80100C04, 0xFFFFFFFF].map
      (fun w => decodeCommand (BitVec.ofNat 32 w) 8) = List.replicate 9 (.rejected .illegalCommand) := by decide +kernel

/-- The 22 rows of R90, written out from the table's 5-bit encodings. -/
theorem test_decode_units :
    ([0b00000, 0b00001, 0b00010, 0b00011, 0b00100, 0b00101, 0b00110, 0b00111, 0b01000, 0b01001, 0b01010, 0b01011,
      0b01100, 0b01101, 0b01110, 0b01111, 0b10000, 0b10001, 0b10010, 0b10011, 0b10100, 0b10101] : List (BitVec 5)).map
      decodeUnit =
    ([.wAdd, .wSub, .wXor, .wRotl, .wRotr, .wFromByte, .wToLe, .wFromLe, .wConstP, .wConstQ, .seqRestart, .seqNext,
      .seqTake, .ksExpand, .ksMix, .ksSchedule, .blkEnc, .blkDec, .cdcValidate, .cdcSplit, .cdcJoin, .cdcApply] :
      List Instr).map .ok := by decide

/-- R91. -/
theorem test_decode_reserved_unit : decodeUnit 0x16 = .rejected .reservedUnitCode := by decide

theorem test_table_word_command : decodeTableWord 32 0x00100C04 = some (.enc32 12 16 0) := by decide

theorem test_table_word_unit : decodeTableWord 8 0x11 = some .blkDec := by decide

/-! ### Helpers: one step on a small state -/

/-- The response of a result. -/
def respOf : Result → Option Response
  | .next s => s.resp
  | .fault _ => none
  | .refused _ => none

/-- A part of the working state of a result. -/
def workOf {α : Type} (f : Working → α) : Result → Option α
  | .next s => some (f s.work)
  | .fault _ => none
  | .refused _ => none

/-- The step that answers a request presented after reset. -/
def answerTo (cmd : BitVec 32) (key data : List Byte) : Option Response :=
  (present { cmd := cmd, len := data.length } key data State.reset).bind fun s => respOf (step s)

/-- OK with these bytes. -/
def okWith (bs : List Byte) : Option Response := some { status := .ok, out := bs }

/-- The state after reset with these parameters fixed and the working state changed. -/
def unitState (w : Width) (r b : BitVec 8) (N : Nat) (f : Working → Working) : State :=
  { State.reset with work := f { Working.reset with par := { dir := .enc, w := w, r := r, b := b, N := N } } }

/-- The operands of a word operation. -/
def operands (a b : Reg) (n : Nat) (wk : Working) : Working :=
  { wk with ports := { wk.ports with a := a, b := b, amount := n } }

/-- Bytes 0, 1, … as V41 writes `[00 01 .. ]`. -/
def countUp (n : Nat) : List Byte := (List.range n).map (BitVec.ofNat 8)

/-! ### The ten commands (V41, PR1, PR4, section 4) -/

theorem test_enc8 : answerTo 0x00800100 (countUp 128) [0x00, 0x00, 0x01, 0x02] = okWith [0xDD, 0xD7, 0xD3, 0x3A] := by
  decide +kernel

theorem test_dec8 : answerTo 0x00800101 (countUp 128) [0xDD, 0xD7, 0xD3, 0x3A] = okWith [0x00, 0x00, 0x01, 0x02] := by
  decide +kernel

theorem test_enc16 :
    answerTo 0x00030202 [0x61, 0x62, 0x63] (countUp 8) = okWith [0x6F, 0xCF, 0xBE, 0x0A, 0x24, 0x1F, 0x44, 0x26] := by
  decide +kernel

theorem test_dec16 :
    answerTo 0x00030203 [0x61, 0x62, 0x63] [0x6F, 0xCF, 0xBE, 0x0A, 0x24, 0x1F, 0x44, 0x26] = okWith (countUp 8) := by
  decide +kernel

/-- Section 4, row 2: a key with bytes of 0x80 and above. -/
theorem test_enc32 :
    answerTo 0x00100C04
      [0x91, 0x5F, 0x46, 0x19, 0xBE, 0x41, 0xB2, 0x51, 0x63, 0x55, 0xA5, 0x01, 0x10, 0xA9, 0xCE, 0x91]
      [0x21, 0xA5, 0xDB, 0xEE, 0x15, 0x4B, 0x8F, 0x6D] = okWith [0xF7, 0xC0, 0x13, 0xAC, 0x5B, 0x2B, 0x89, 0x52] := by
  decide +kernel

/-- PR1, line 2. -/
theorem test_dec32 :
    answerTo 0x00100C05 (List.replicate 16 0) [0x21, 0xA5, 0xDB, 0xEE, 0x15, 0x4B, 0x8F, 0x6D] =
      okWith (List.replicate 8 0) := by
  decide +kernel

theorem test_enc64 :
    answerTo 0x00080106 [0x01, 0x02, 0x03, 0x04, 0x05, 0x06, 0x07, 0x08] (countUp 16) =
      okWith [0x8D, 0xA7, 0xAA, 0xE3, 0x9F, 0x15, 0x1A, 0x5C, 0x17, 0xC8, 0x51, 0x05, 0xAA, 0x4D, 0x0F, 0xC5] := by
  decide +kernel

/-- V41, row 10 read backward (R199). -/
theorem test_dec64 :
    answerTo 0x00080107 [0x01, 0x02, 0x03, 0x04, 0x05, 0x06, 0x07, 0x08]
      [0x8D, 0xA7, 0xAA, 0xE3, 0x9F, 0x15, 0x1A, 0x5C, 0x17, 0xC8, 0x51, 0x05, 0xAA, 0x4D, 0x0F, 0xC5] =
      okWith (countUp 16) := by
  decide +kernel

theorem test_enc128 :
    answerTo 0x00000108 [] (countUp 32) =
      okWith [0x52, 0xEC, 0x67, 0x54, 0x53, 0x6D, 0x10, 0x59, 0xCA, 0xDE, 0x33, 0xA1, 0x60, 0xB5, 0x83, 0xC1,
        0xE1, 0xE9, 0x2C, 0x09, 0x38, 0x11, 0x9B, 0x20, 0x71, 0x55, 0xCD, 0x55, 0x31, 0xD7, 0xB3, 0xCE] := by
  decide +kernel

/-- V41, row 11 read backward (R199). -/
theorem test_dec128 :
    answerTo 0x00000109 []
      [0x52, 0xEC, 0x67, 0x54, 0x53, 0x6D, 0x10, 0x59, 0xCA, 0xDE, 0x33, 0xA1, 0x60, 0xB5, 0x83, 0xC1,
        0xE1, 0xE9, 0x2C, 0x09, 0x38, 0x11, 0x9B, 0x20, 0x71, 0x55, 0xCD, 0x55, 0x31, 0xD7, 0xB3, 0xCE] =
      okWith (countUp 32) := by
  decide +kernel

/-- V41: an odd word count, and an illegal word with a bad length (PR5, line 4). -/
theorem test_wrong_input_size :
    answerTo 0x00000C04 [] (List.replicate 12 0) = some { status := .wrongInputSize, out := [] } := by
  decide +kernel

theorem test_illegal_first :
    answerTo 0x0000000A [] (List.replicate 7 0) = some { status := .illegalCmd, out := [] } := by
  decide +kernel

/-! ### The word-arithmetic unit (V10, V11, V12) -/

theorem test_wAdd : workOf (·.ports.out) (exec .wAdd (unitState .w8 0 0 0 (operands 200 100 0))) = some 44 := by decide

theorem test_wSub : workOf (·.ports.out) (exec .wSub (unitState .w16 0 0 0 (operands 10 11 0))) = some 0xFFFF := by
  decide

theorem test_wXor :
    workOf (·.ports.out) (exec .wXor (unitState .w16 0 0 0 (operands 0xB7E1 0x9E37 0))) = some 0x29D6 := by decide

theorem test_wRotl : workOf (·.ports.out) (exec .wRotl (unitState .w8 0 0 0 (operands 0x81 0 43))) = some 0x0C := by
  decide

/-- V11: the amount is Q_128 as a natural. -/
theorem test_wRotl_128 :
    workOf (·.ports.out) (exec .wRotl (unitState .w128 0 0 0
      (operands 0xb7e151628aed2a6abf7158809cf4f3c7 0 0x9e3779b97f4a7c15f39cc0605cedc835))) =
      some 0x4D57EE2B10139E9E78F6FC2A2C515DA5 := by decide +kernel

theorem test_wRotr :
    workOf (·.ports.out) (exec .wRotr (unitState .w32 0 0 0 (operands 0x80000001 0 36))) = some 0x18000000 := by decide

theorem test_wFromByte :
    workOf (·.ports.out) (exec .wFromByte (unitState .w16 0 0 0 fun wk =>
      { wk with ports := { wk.ports with byte := 0xFF } })) = some 0x00FF := by decide

theorem test_wToLe :
    workOf (fun wk => wk.ports.lanes.toList.take 4) (exec .wToLe (unitState .w32 0 0 0 (operands 0x12345678 0 0))) =
      some [0x78, 0x56, 0x34, 0x12] := by decide +kernel

theorem test_wFromLe :
    workOf (·.ports.out) (exec .wFromLe (unitState .w32 0 0 0 fun wk => wk.setLanes [0x21, 0xA5, 0xDB, 0xEE, 0x77])) =
      some 0xEEDBA521 := by decide +kernel

theorem test_wConstP : workOf (·.ports.out) (exec .wConstP (unitState .w16 0 0 0 id)) = some 0xB7E1 := by decide

theorem test_wConstQ : workOf (·.ports.out) (exec .wConstQ (unitState .w16 0 0 0 id)) = some 0x9E37 := by decide

/-! ### The key sequence generator (R141, R142, R145) -/

theorem test_seqRestart : workOf (·.G) (exec .seqRestart (unitState .w16 0 0 0 id)) = some 0xB7E1 := by decide

theorem test_seqNext :
    workOf (fun wk => (wk.ports.out, wk.G)) (exec .seqNext (unitState .w16 0 0 0 fun wk => { wk with G := 0xB7E1 })) =
      some (0xB7E1, 0x5618) := by decide

theorem test_seqTake :
    workOf (fun wk => wk.S.toList.take 4) (exec .seqTake (unitState .w32 0 0 0 fun wk =>
      { wk with ports := { wk.ports with count := 4 } })) =
      some [0xB7E15163, 0x5618CB1C, 0xF45044D5, 0x9287BE8E] := by decide +kernel

/-! ### The key schedule (V21, V22, V25) -/

/-- V21, row 3: a partly filled last word. -/
theorem test_ksExpand :
    workOf (fun wk => wk.L.toList.take 2)
      (exec .ksExpand { unitState .w16 0 3 0 id with key := [(0, 0xAA), (1, 0xBB), (2, 0xCC)] }) =
      some [0xBBAA, 0x00CC] := by decide +kernel

/-- V22, with the final accumulators of its last row. -/
theorem test_ksMix :
    workOf (fun wk => (wk.S.toList.take 4, wk.A, wk.B))
      (exec .ksMix (unitState .w16 1 3 0 fun wk => { wk with L := writeWords wk.L [0x0201#16, 0x0003#16] })) =
      some ([0x68D4, 0xEEFF, 0x047C, 0xF307], 0xF307, 0x1DB0) := by decide +kernel

/-- V25: c greater than t. -/
theorem test_ksSchedule :
    workOf (fun wk => wk.S.toList.take 2)
      (exec .ksSchedule { unitState .w8 0 5 0 id with key := Memory.ofBytes 0 (countUp 5) }) = some [0xDD, 0x09] := by
  decide +kernel

/-! ### The block round function (V1, V30) -/

/-- The block operations' state: a table, a block, a round count. -/
def blockState (w : Width) (r : BitVec 8) (S : List (Word w)) (A B : Reg) : State :=
  unitState w r 0 0 fun wk => { wk with S := writeWords wk.S S, A := A, B := B }

theorem test_blkEnc :
    workOf (fun wk => (wk.A, wk.B)) (exec .blkEnc (blockState .w16 1 [0#16, 1#16, 2#16, 3#16] 10 10)) =
      some (2050, 8231) := by decide +kernel

/-- V30, row 9: two rounds. -/
theorem test_blkEnc_two_rounds :
    workOf (fun wk => (wk.A, wk.B)) (exec .blkEnc (blockState .w8 2 [1#8, 2#8, 3#8, 4#8, 5#8, 6#8] 7 9)) =
      some (0xFE, 0xA4) := by decide +kernel

theorem test_blkDec :
    workOf (fun wk => (wk.A, wk.B)) (exec .blkDec (blockState .w16 1 [0#16, 1#16, 2#16, 3#16] 2050 8231)) =
      some (10, 10) := by decide +kernel

/-! ### The codec (V3, V40, R191, R192) -/

/-- The phase and the status noted by a result. -/
def noted : Result → Option (Phase × Status)
  | .next s => some (s.phase, s.outcome)
  | .fault _ => none
  | .refused _ => none

theorem test_cdcValidate_fails :
    noted (exec .cdcValidate (unitState .w32 0 0 12 id)) = some (.respond, .wrongInputSize) := by decide

theorem test_cdcValidate_ok : noted (exec .cdcValidate (unitState .w32 0 0 8 id)) = some (.idle, .ok) := by decide

theorem test_cdcSplit :
    workOf (·.ports.words) (exec .cdcSplit { unitState .w16 0 0 4 id with din := [(0, 1), (1, 0), (2, 2), (3, 0)] }) =
      some [0x0001, 0x0002] := by decide +kernel

/-- N = 3 at w = 16: the one whole word is as R191 has it. -/
theorem test_cdcSplit_byte_left_over :
    workOf (fun wk => wk.ports.words.head?)
      (exec .cdcSplit { unitState .w16 0 0 3 id with din := [(0, 1), (1, 0), (2, 2)] }) = some (some 0x0001) := by
  decide +kernel

/-- DOUT of a result. -/
def doutOf : Result → Option Memory
  | .next s => some s.dout
  | .fault _ => none
  | .refused _ => none

theorem test_cdcJoin :
    doutOf (exec .cdcJoin (unitState .w16 0 0 4 fun wk => wk.setWords [0x7866, 0x33F6])) =
      some [(0, 0x66), (1, 0x78), (2, 0xF6), (3, 0x33)] := by decide +kernel

/-- V41, row 1, after SPLIT: equal blocks give equal blocks. -/
theorem test_cdcApply :
    workOf (·.ports.words) (exec .cdcApply (unitState .w8 1 0 4 fun wk =>
      { wk.setWords [0xFF, 0xF0, 0xFF, 0xF0] with S := writeWords wk.S [168#8, 6#8, 50#8, 92#8] })) =
      some [0x86, 0x78, 0x86, 0x78] := by decide +kernel

/-- Three words: the whole pair is transformed as in V41, row 1, and the list keeps its length. -/
theorem test_cdcApply_word_left_over :
    workOf (fun wk => (wk.ports.words.take 2, wk.ports.words.length)) (exec .cdcApply (unitState .w8 1 0 4 fun wk =>
      { wk.setWords [0xFF, 0xF0, 0xFF] with S := writeWords wk.S [168#8, 6#8, 50#8, 92#8] })) =
      some ([0x86, 0x78], 3) := by decide +kernel

/-- V3: the operation with another block function, the swap. -/
theorem test_apply_swap :
    (Working.apply (fun wk => { wk with A := wk.B, B := wk.A })
      (Working.reset.setWords [0xFF, 0xF0, 0xFF, 0xF0])).ports.words = [0xF0, 0xFF, 0xF0, 0xFF] := by decide +kernel

/-! ### The sequencer and the step -/

/-- A waiting engine stays as it is (R28 IDLE). -/
theorem test_idle_waits : noted (step State.reset) = some (.idle, .ok) := by decide

/-- From IDLE: one phase to DECODE, then the rest of the command; V41, row 4. -/
theorem test_phases :
    respOf (andThen (phaseStep (State.reset.withRequest { cmd := 0x00000002, len := 4 } [] [0x01, 0x00, 0x02, 0x00])) step) =
      okWith [0x66, 0x78, 0xF6, 0x33] := by decide +kernel

/-- A unit operation by its select code. -/
theorem test_step_unit : workOf (·.G) (step (State.reset.withFetchWord 8 0x0A)) = some 0xB7 := by decide

/-! ### The assembler (R93, R94) -/

theorem test_pseudo : assemble (.pseudo .dec (List.replicate 16 0) (List.replicate 8 0)) =
    some { req := { cmd := 0x00100C05, len := 8 }, key := List.replicate 16 0, data := List.replicate 8 0 } := by
  decide

theorem test_readLine : readLine "ENC.16 r=2 key=[616263] data=[0aFF]" =
    some (.command .enc .w16 2 [0x61, 0x62, 0x63] [0x0A, 0xFF]) := by decide +kernel

theorem test_readRaw : readLine "RAW cmd=0x0108010A len=16" = some (.raw 0x0108010A 16) := by decide +kernel

theorem test_showResponse : showResponse { status := .ok, out := [0x66, 0x78, 0xF6, 0x33] } = "OK [6678F633]" := by
  decide +kernel

/-! ### Witnesses: states and operands that meet the hypotheses of the statements, each at its boundary

The decode tests above are the witnesses of EncodeDecodeRoundTrip and HostIssuesOnlyTheTenCommands, and
test_wf_accepts_255 that of DecodeEncodeRoundTrip. -/

/-- A state that holds a request with its bytes. -/
def asked (cmd : BitVec 32) (key data : List Byte) : State :=
  State.reset.withRequest { cmd := cmd, len := data.length } key data

theorem asked_supplies (cmd : BitVec 32) (key data : List Byte) : (asked cmd key data).Supplies key data :=
  ⟨Memory.readN_ofBytes key, Memory.readN_ofBytes data⟩

theorem next_of_respOf {o : Result} {p : Response} (h : respOf o = some p) : ∃ t, o = .next t ∧ t.resp = some p := by
  cases o with
  | next t => exact ⟨t, rfl, h⟩
  | fault e => cases h
  | refused e => cases h

/-- LegalCommandWords, IllegalWordAnswer: each test of R88 alone, and the last legal opcode byte. -/
theorem wit_LegalCommandWords :
    ((0x01000000#32).extractLsb' 24 8 ≠ 0 ∧ (0x00000010#32).extractLsb' 4 4 ≠ 0 ∧
      5 ≤ ((0x0000000A#32).extractLsb' 1 3).toNat) ∧
    ((0x00FFFF09#32).extractLsb' 24 8 = 0 ∧ (0x00FFFF09#32).extractLsb' 4 4 = 0 ∧
      ((0x00FFFF09#32).extractLsb' 1 3).toNat < 5) := by decide

theorem wit_UnitCodesAndReservedCodes :
    (0x15#5).toNat ≤ 0x15 ∧ 0x16 ≤ (0x16#5).toNat ∧ ({ State.reset with usel := some 0x16#5 } : State).usel = some 0x16#5 :=
  ⟨by decide, by decide, rfl⟩

/-- PseudoCommandsExpand (both sides of the bound), AssemblerMakesLegalWords, MixIndicesAndCount: 255 and 256. -/
theorem wit_AssemblerMakesLegalWords :
    (List.replicate 255 (0 : Byte)).length ≤ 255 ∧ 255 < (List.replicate 256 (0 : Byte)).length ∧ (255 : Nat) ≤ 255 ∧
      (255 : Nat) < 256 :=
  ⟨Nat.le_of_eq List.length_replicate, by rw [List.length_replicate]; decide, le_refl _, by decide⟩

theorem wit_ConstantResults (w : Width) : (unitState w 0 0 0 id).work.par.w = w := rfl

theorem wit_UnitInverses (w : Width) : (List.replicate w.bytes (0xFF : Byte)).length = w.bytes := List.length_replicate

/-- HostIssuesOnlyTheTenCommands: a host that may ask, and one that has asked and may not again (R259). -/
theorem wit_HostIssuesOnlyTheTenCommands :
    (State.reset.req = none ∧ State.reset.phase = .idle) ∧ (asked 0x00000002 [] []).req ≠ none ∧
      present { cmd := 2, len := 0 } [] [] (asked 0x00000002 [] []) = none := by decide

/-- TakeFillsTheTable and the first clause of UnitOperationStops. -/
theorem wit_TakeFillsTheTable :
    ({ Ports.reset with count := 512 } : Ports).count ≤ 512 ∧ 512 < ({ Ports.reset with count := 513 } : Ports).count := by
  decide

/-- ExpandResult, ScheduleResult, with the longest key; and a key that is not supplied (UnitOperationStops). -/
theorem wit_ExpandResult :
    ({ unitState .w8 0 255 0 id with key := Memory.ofBytes 0 (List.replicate 255 7) } : State).keyBytes =
      some (List.replicate 255 7) ∧ (unitState .w8 0 1 0 id).keyBytes = none :=
  ⟨by have h := Memory.readN_ofBytes (List.replicate 255 (7 : Byte)); rw [List.length_replicate] at h; exact h, rfl⟩

/-- Two tables that differ only beyond 2r + 1. -/
theorem wit_SubkeysReadByBlock : ∀ i < 2 * 0 + 2, ([0, 0, 1] : List (Word .w8))[i]? = ([0, 0, 2] : List (Word .w8))[i]? := by
  decide

/-- ValidateResult: N = 0, one byte too many, one word too many. -/
theorem wit_ValidateResult :
    (0 % Width.w16.bytes = 0 ∧ 0 / Width.w16.bytes % 2 = 0) ∧ 5 % Width.w16.bytes ≠ 0 ∧
      (6 % Width.w16.bytes = 0 ∧ 6 / Width.w16.bytes % 2 ≠ 0) := by decide

/-- SplitResult: one whole word, with and without a byte left over; UnitOperationStops: a byte missing. -/
theorem wit_SplitResult :
    ({ unitState .w16 0 0 2 id with din := [(0, 1), (1, 2)] } : State).din.readN 0 (2 / Width.w16.bytes * 2) =
      some [1, 2] ∧
    ({ unitState .w16 0 0 3 id with din := [(0, 1), (1, 2)] } : State).din.readN 0 (3 / Width.w16.bytes * 2) =
      some [1, 2] ∧
    (unitState .w16 0 0 2 id).din.readN 0 (2 / Width.w16.bytes * 2) = none ∧ 2 % Width.w16.bytes = 0 := by decide

/-- JoinResult and UnitOperationStops: room for exactly the words, one byte short; ApplyResult: an even list. -/
theorem wit_JoinResult :
    ([1, 2] : List Reg).length * Width.w16.bytes ≤ 4 ∧ 3 < ([1, 2] : List Reg).length * Width.w16.bytes ∧
      ([1, 2] : List Reg).length % 2 = 0 := by decide

/-- CommandAnswersOk, DecodeUndoesEncode, EncodeUndoesDecode, JoinAfterSplit, OutputBlockOfInputBlock, NoChaining: the
largest r and key, two blocks. -/
theorem wit_CommandAnswersOk :
    (255 : Nat) ≤ 255 ∧ (List.replicate 255 (9 : Byte)).length ≤ 255 ∧
    (countUp 8).length % Width.w16.bytes = 0 ∧ (countUp 8).length / Width.w16.bytes % 2 = 0 ∧
    (countUp 8).length % (2 * Width.w16.bytes) = 0 ∧ 1 < (countUp 8).length / (2 * Width.w16.bytes) ∧
    (asked 0x00FFFF02 (List.replicate 255 9) (countUp 8)).Supplies (List.replicate 255 9) (countUp 8) :=
  ⟨le_refl _, Nat.le_of_eq List.length_replicate, by decide, by decide, by decide, by decide, asked_supplies _ _ _⟩

/-- UnsuppliedByteStops: a key byte missing; no key byte asked for and a data byte missing. -/
theorem wit_UnsuppliedByteStops :
    State.reset.key.readN 0 255 = none ∧ State.reset.key.readN 0 0 = some [] ∧ State.reset.din.readN 0 8 = none ∧
      8 % Width.w32.bytes = 0 ∧ 8 / Width.w32.bytes % 2 = 0 := by decide

/-- OutputLengthIsInputLength, CommandWritesOnlyItsOutput, KeyAndDataAreNeverWritten: OK with no bytes (R198), and a
failure. -/
theorem wit_OutputLengthIsInputLength :
    (∃ t, exec (Instr.command .enc .w8 0 0 0) State.reset = .next t ∧ t.resp = some { status := .ok, out := [] }) ∧
    ∃ t, exec (Instr.command .dec .w8 0 0 1) State.reset = .next t ∧
      t.resp = some { status := .wrongInputSize, out := [] } :=
  ⟨next_of_respOf (by decide +kernel), next_of_respOf (by decide +kernel)⟩

/-- StepRunsTheDecodedInstruction, one for each clause. -/
theorem wit_StepRunsTheDecodedInstruction :
    ((asked 0x00FFFF09 [] []).req = some { cmd := 0x00FFFF09, len := 0 } ∧
      decode (.command 0x00FFFF09 0) = .ok (.dec128 255 255 0)) ∧
    decode (.unit 0x15) = .ok .cdcApply ∧ State.reset.req = none := ⟨⟨rfl, by decide⟩, by decide, rfl⟩

/-- ResponseIsAFunctionOfTheRequest, OnlyTheRequestIsSeen, LegalRequestsAnswerOkOrWrongInputSize, SequencerRefinesTheStep:
a legal request with its bytes, in a state that is idle. -/
theorem wit_ResponseIsAFunctionOfTheRequest :
    (asked 0x00000002 [] [1, 0, 2, 0]).usel = none ∧ (asked 0x00000002 [] [1, 0, 2, 0]).phase = .idle ∧
    (asked 0x00000002 [] [1, 0, 2, 0]).req = some { cmd := 0x00000002, len := 4 } ∧
    decodeFields 0x00000002 = .ok { dir := .enc, w := .w16, r := 0, b := 0 } ∧
    (asked 0x00000002 [] [1, 0, 2, 0]).Supplies [] [1, 0, 2, 0] ∧
    ∃ t, step (asked 0x00000002 [] [1, 0, 2, 0]) = .next t ∧
      t.resp = some { status := .ok, out := [0x66, 0x78, 0xF6, 0x33] } :=
  ⟨rfl, rfl, rfl, by decide, asked_supplies _ _ _, next_of_respOf (by decide +kernel)⟩

/-- StepEndsIdle from inside a command: phase RESPOND with a failure noted. -/
theorem wit_StepEndsIdle :
    ∃ t, step (raise .wrongInputSize State.reset) = .next t ∧ t.resp = some { status := .wrongInputSize, out := [] } :=
  next_of_respOf rfl

/-- UnitOperationsKeepParametersAndBounds, TablesAreWrittenOnlyByTheirOperations. -/
theorem wit_UnitOperationsKeepParametersAndBounds :
    isCommand .wAdd = false ∧ ∃ t, exec .wAdd State.reset = .next t := ⟨rfl, _, rfl⟩

theorem wit_StepKeepsTheInvariant : State.reset.Inv ∧ step State.reset = .next State.reset :=
  ⟨⟨List.Pairwise.nil, List.Pairwise.nil, List.Pairwise.nil, fun _ h => by cases h⟩, rfl⟩

end Sys2Proof.Tests
end

section
/-! The equations of `step`, one for each way it starts from the idle engine or from a selected unit operation, and the
obligation they settle. -/

namespace Sys2Proof.Machine

/-- An idle engine that holds a request for the command `i` runs `i` with the request taken (`00_scope.md` R13). -/
theorem step_eq_exec_of_request {s : State} {q : Request} {i : Instr} (husel : s.usel = none)
    (hphase : s.phase = .idle) (hreq : s.req = some q) (hdec : decode (.command q.cmd q.len) = .ok i) :
    step s = exec i s.takeRequest := by
  have hcmd : decodeCommand q.cmd q.len = .ok i := hdec
  simp only [step, husel, hphase, hreq, hcmd]

/-- A selected unit operation runs before anything else is looked at, with its code taken (`30_encoding.md` R80). -/
theorem step_eq_exec_of_usel {s : State} {uop : BitVec 5} {i : Instr} (husel : s.usel = some uop)
    (hdec : decode (.unit uop) = .ok i) : step s = exec i { s with usel := none } := by
  have hunit : decodeUnit uop = .ok i := hdec
  simp only [step, husel, hunit]

/-- With neither a unit code nor a request the idle engine waits (`10_state.md` R28). -/
theorem step_eq_next_self_of_waiting {s : State} (husel : s.usel = none) (hphase : s.phase = .idle)
    (hreq : s.req = none) : step s = .next s := by
  simp only [step, husel, hphase, hreq]

/-- Settles O48, clause by clause from the equations of `step`. -/
theorem stepRunsTheDecodedInstruction : Obligations.StepRunsTheDecodedInstruction := fun _ =>
  ⟨fun _ _ husel hphase hreq hdec => step_eq_exec_of_request husel hphase hreq hdec,
    fun _ _ husel hdec => step_eq_exec_of_usel husel hdec,
    fun husel hphase hreq => step_eq_next_self_of_waiting husel hphase hreq⟩

end Sys2Proof.Machine
end

section
/-! A command as one function of its request: the operations of a command in turn, each stop included, and the step of
an idle engine on a request (`00_scope.md` R13; `44_block_codec.md` R194, R195). -/

namespace Sys2Proof.Machine

/-! ### The key schedule -/

/-- The state after the key schedule of these key bytes. -/
def State.scheduled (s : State) (key : List Byte) : State := s.onWork fun wk => (wk.expand key).mix

/-- KS.SCHEDULE on supplied key bytes is KS.EXPAND and then KS.MIX on the working state (`42_key_schedule.md` R159). -/
theorem execKsSchedule_some {s : State} {key : List Byte} (hkey : s.keyBytes = some key) :
    execKsSchedule s = .next (s.scheduled key) := by
  rw [execKsSchedule, execKsExpand_some hkey]
  rfl

theorem execKsSchedule_none {s : State} (hkey : s.keyBytes = none) :
    execKsSchedule s = .fault (.byteAbsent .key) := by
  rw [execKsSchedule, execKsExpand_none hkey, andThen_fault]

/-- After the schedule the block operations read the subkeys of (w, r, key bytes) (`42_key_schedule.md` R159). -/
theorem Working.schedule_table (wk : Working) {key : List Byte} (hb : key.length = wk.par.b.toNat) :
    readWords wk.par.bits wk.par.t (wk.expand key).mix.S = subkeys wk.par.w wk.par.r.toNat key := by
  obtain ⟨hL, -⟩ := wk.expand_table hb
  obtain ⟨hS, -⟩ := (wk.expand key).mix_tables
  simp only [Working.expand_par, hL] at hS
  rw [hS, subkeys, hb]

/-! ### A command that passes validation -/

/-- The output bytes of a command with these parameters (`44_block_codec.md` R194, R195). -/
def Params.output (p : Params) (key data : List Byte) : List Byte := transform p.dir p.w p.r.toNat key data

/-- The block function of a command whose subkeys stand in the table S (`30_encoding.md` R82). -/
def Params.blockUnder (p : Params) (S : Vector Reg 512) : Block p.bits → Block p.bits :=
  blockFn p.dir p.r.toNat (readWords p.bits p.t S)

/-- The codec's three operations under the table the key schedule leaves give the output bytes. -/
theorem joinWords_applyPairs_scheduled {s : State} {p : Params} {key data : List Byte} (hp : s.work.par = p)
    (hkey : s.keyBytes = some key) (hN : data.length = p.N) :
    joinWords p.w (applyPairs (p.blockUnder (s.scheduled key).work.S) (splitWords p.w (p.N / p.u) data)) =
      p.output key data := by
  subst hp
  rw [Params.blockUnder, State.scheduled, State.onWork_work, s.work.schedule_table (Memory.readN_length hkey),
    Params.output, transform, hN]

/-- A valid length is a whole number of words. -/
theorem Params.words_mul_bytes {p : Params} (hv : validLength p.w p.N = true) : p.N / p.u * p.u = p.N :=
  Nat.div_mul_cancel (Nat.dvd_of_mod_eq_zero ((validLength_iff _ _).1 hv).1)

/-- The words of a valid length form whole pairs, and the block function leaves as many. -/
theorem Params.applyPairs_splitWords_length {p : Params} (hv : validLength p.w p.N = true)
    (F : Block p.bits → Block p.bits) (data : List Byte) :
    (applyPairs F (splitWords p.w (p.N / p.u) data)).length = p.N / p.u := by
  rw [applyPairs_length _ _ (by rw [splitWords_length]; exact ((validLength_iff _ _).1 hv).2), splitWords_length]

/-- A command that passes validation returns as many bytes as it is given (`44_block_codec.md` R196). -/
theorem Params.output_length {p : Params} {data : List Byte} (key : List Byte) (hv : validLength p.w p.N = true)
    (hN : data.length = p.N) : (p.output key data).length = p.N := by
  rw [Params.output, transform, hN, joinWords_length, Params.applyPairs_splitWords_length hv, Params.words_mul_bytes hv]

/-- The state with bytes written to DOUT from address a on and with another working state. -/
def State.wrote (s : State) (wk : Working) (a : Nat) (bs : List Byte) : State :=
  { s with work := wk, dout := s.dout.writeN a bs }

@[simp] theorem State.wrote_work (s : State) (wk : Working) (a : Nat) (bs : List Byte) :
    (s.wrote wk a bs).work = wk := rfl
@[simp] theorem State.wrote_din (s : State) (wk : Working) (a : Nat) (bs : List Byte) :
    (s.wrote wk a bs).din = s.din := rfl
@[simp] theorem State.wrote_dout (s : State) (wk : Working) (a : Nat) (bs : List Byte) :
    (s.wrote wk a bs).dout = s.dout.writeN a bs := rfl

/-- Two runs of bytes written one behind the other are one run. -/
theorem State.wrote_wrote (s : State) (wk wk' : Working) (a : Nat) (xs ys : List Byte) :
    (s.wrote wk a xs).wrote wk' (a + xs.length) ys = s.wrote wk' a (xs ++ ys) := by
  simp only [State.wrote, Memory.writeN_append]

/-- RESPOND returns the bytes that have been written to DOUT from address 0 on. -/
theorem respond_wrote {s : State} {wk : Working} {bs : List Byte} (ho : s.outcome = .ok) (hN : wk.par.N = bs.length) :
    respond (s.wrote wk 0 bs) = .next (s.answered { status := .ok, out := bs } (s.dout.writeN 0 bs)) :=
  respond_ok ho (by rw [State.wrote_work, hN]; exact Memory.readN_writeN s.dout 0 bs)

/-- CDC.APPLY on an even number of words that stand in the port: the words transformed stand there afterwards. -/
theorem execCdcApply_words {s : State} {p : Params} {ws : List (BitVec p.bits)} (hp : s.work.par = p)
    (hws : s.work.ports.words = ws.map toReg) (heven : ws.length % 2 = 0) :
    ∃ wk, execCdcApply s = .next (s.onWork fun _ => wk) ∧ wk.par = p ∧
      wk.ports.words = (applyPairs (p.blockUnder s.work.S) ws).map toReg := by
  obtain ⟨wk, hrun, hwords, hsame⟩ := execCdcApply_even hp (by rw [hws, List.length_map]; exact heven)
  refine ⟨wk, hrun, hsame.par.trans hp, ?_⟩
  rw [hwords, hws, map_toWord_toReg (Width.bits_le _), Params.blockUnder]

/-- CDC.JOIN of words of the command's width that DOUT has room for. -/
theorem execCdcJoin_words {s : State} {p : Params} {ws : List (BitVec p.bits)} (hp : s.work.par = p)
    (hws : s.work.ports.words = ws.map toReg) (hroom : ws.length * p.u ≤ p.N) :
    execCdcJoin s = .next (s.wrote s.work 0 (joinWords p.w ws)) := by
  rw [execCdcJoin_room hp (by rw [hws, List.length_map]; exact hroom), hws, map_toWord_toReg (Width.bits_le _),
    State.wrote]

/-- CDC.SPLIT, CDC.APPLY and CDC.JOIN one after another, on supplied data of a valid length: DOUT has the data
transformed under the table S from address 0 on, and only the working state has changed beside it; f is what follows. -/
theorem execCodec_of_supplied {s : State} {p : Params} {data : List Byte} (hp : s.work.par = p)
    (hv : validLength p.w p.N = true) (hdata : s.din.readN 0 p.N = some data) (f : State → Result) :
    ∃ wk, wk.par = p ∧
      (andThen (execCdcSplit s) fun s => andThen (execCdcApply s) fun s => andThen (execCdcJoin s) f) =
        f (s.wrote wk 0 (joinWords p.w (applyPairs (p.blockUnder s.work.S) (splitWords p.w (p.N / p.u) data)))) := by
  obtain ⟨hwhole, heven⟩ := (validLength_iff _ _).1 hv
  have hsplit := execCdcSplit_some hp hwhole hdata
  obtain ⟨wk, happly, hpar, hwords⟩ := execCdcApply_words
    (s := s.onWork fun wk => wk.setWords ((splitWords p.w (p.N / p.u) data).map toReg)) (p := p) hp rfl
    (by rw [splitWords_length]; exact heven)
  have hjoin := execCdcJoin_words (s := s.onWork fun _ => wk) hpar hwords
    (by rw [Params.applyPairs_splitWords_length hv, Params.words_mul_bytes hv])
  refine ⟨wk, hpar, ?_⟩
  rw [hsplit, andThen_next, happly, andThen_next]
  exact congrArg (andThen · f) hjoin

section
variable {s : State} {p : Params} {key data : List Byte}

/-- A command stops at a key byte that is not supplied (notes/assumptions/8.md). -/
theorem encipher_of_key_absent (hkey : s.keyBytes = none) : encipher s = .fault (.byteAbsent .key) := by
  rw [encipher, execKsSchedule_none hkey, andThen_fault]

/-- A command stops at a data byte that is not supplied (notes/assumptions/8.md). -/
theorem encipher_of_data_absent (hp : s.work.par = p) (hv : validLength p.w p.N = true)
    (hkey : s.keyBytes = some key) (hdata : s.din.readN 0 p.N = none) :
    encipher s = .fault (.byteAbsent .din) := by
  have hsplit : execCdcSplit (s.scheduled key) = .fault (.byteAbsent .din) :=
    execCdcSplit_none hp (by rw [Params.words_mul_bytes hv]; exact hdata)
  rw [encipher, execKsSchedule_some hkey, andThen_next, hsplit, andThen_fault]

/-- On supplied bytes a command answers OK with its output bytes, which it has written to DOUT from address 0 on
(`44_block_codec.md` R194, R195). -/
theorem encipher_of_supplied (hp : s.work.par = p) (ho : s.outcome = .ok) (hv : validLength p.w p.N = true)
    (hkey : s.keyBytes = some key) (hdata : s.din.readN 0 p.N = some data) :
    encipher s = .next (s.answered { status := .ok, out := p.output key data }
      (s.dout.writeN 0 (p.output key data))) := by
  have hN : data.length = p.N := Memory.readN_length hdata
  obtain ⟨wk, hpar, hcodec⟩ := execCodec_of_supplied (s := s.scheduled key) hp hv hdata respond
  rw [joinWords_applyPairs_scheduled hp hkey hN] at hcodec
  rw [encipher, execKsSchedule_some hkey, andThen_next, hcodec]
  exact respond_wrote (s := s.scheduled key) ho (by rw [hpar, Params.output_length key hv hN])

/-- The response to a command whose length does not pass validation (`60_exceptions.md` R220, R225). -/
theorem runCommand_of_invalid {dir : Dir} {w : Width} {r klen len : Nat} (hv : validLength w len = false) :
    runCommand dir w r klen len s = .next (s.answered { status := .wrongInputSize, out := [] } s.dout) := by
  rw [runCommand, hv]
  exact respond_fail (c := .wrongInputSize) (by decide)

/-- A command whose length passes validation and whose bytes are supplied. -/
theorem runCommand_of_supplied {dir : Dir} {w : Width} {r : Nat} (hr : r < 256) (hb : key.length < 256)
    (hv : validLength w data.length = true) (hs : s.Supplies key data) :
    runCommand dir w r key.length data.length s =
      .next (s.answered { status := .ok, out := transform dir w r key data }
        (s.dout.writeN 0 (transform dir w r key data))) := by
  obtain ⟨hkey, hdata⟩ := hs
  have hout : (Params.ofCommand dir w r key.length data.length).output key data = transform dir w r key data := by
    simp only [Params.output, Params.ofCommand, BitVec.toNat_ofNat, Nat.mod_eq_of_lt hr]
  have hkeyBytes : (start (Params.ofCommand dir w r key.length data.length) s).keyBytes = some key := by
    simp only [State.keyBytes, start_work, start_key, Params.ofCommand, BitVec.toNat_ofNat, Nat.mod_eq_of_lt hb, hkey]
  rw [runCommand, if_pos hv,
    encipher_of_supplied (p := Params.ofCommand dir w r key.length data.length) rfl rfl hv hkeyBytes hdata, hout]
  rfl

/-- A command whose bytes are supplied answers the function of the request, valid length or not (`00_scope.md` R13). -/
theorem runCommand_answers {dir : Dir} {w : Width} {r : Nat} (hr : r < 256) (hb : key.length < 256)
    (hs : s.Supplies key data) :
    ∃ dout, runCommand dir w r key.length data.length s = .next (s.answered (answer dir w r key data) dout) := by
  unfold answer
  split
  · next hv => exact ⟨_, runCommand_of_supplied hr hb hv hs⟩
  · next hv => exact ⟨_, runCommand_of_invalid (Bool.eq_false_iff.2 hv)⟩

end

/-! ### The step on a request -/

/-- The fields R and KLEN have 8 bits (`30_encoding.md` R84, R85). -/
theorem decodeFields_lt {cmd : BitVec 32} {f : Fields} (hdec : decodeFields cmd = .ok f) : f.r < 256 ∧ f.b < 256 := by
  unfold decodeFields at hdec
  split at hdec
  · cases hdec
  · split at hdec
    · cases hdec
    · cases hdec
      exact ⟨BitVec.isLt _, BitVec.isLt _⟩

/-- The response to a word that spells no command (`60_exceptions.md` R221, R224). -/
theorem refuseCommand_eq (s : State) :
    refuseCommand s = .next (s.answered { status := .illegalCmd, out := [] } s.dout) :=
  respond_fail (by decide)

/-- Each of the ten commands is run by `runCommand`. -/
theorem exec_command (dir : Dir) (w : Width) (r klen len : Nat) (s : State) :
    exec (Instr.command dir w r klen len) s = runCommand dir w r klen len s := by
  cases dir <;> cases w <;> rfl

section
variable {s : State} {q : Request} (husel : s.usel = none) (hphase : s.phase = .idle) (hreq : s.req = some q)
include husel hphase hreq

/-- An idle engine runs the command that a legal word names, with the request taken. -/
theorem step_eq_runCommand {f : Fields} (hdec : decodeFields q.cmd = .ok f) :
    step s = runCommand f.dir f.w f.r f.b q.len s.takeRequest := by
  rw [step_eq_exec_of_request husel hphase hreq (i := Instr.command f.dir f.w f.r f.b q.len)
    (by simp only [decode, decodeCommand, hdec]), exec_command]

/-- An idle engine refuses a word that spells no command, with the request taken (`60_exceptions.md` R221). -/
theorem step_eq_refuseCommand {e : Reject} (hdec : decodeFields q.cmd = .rejected e) :
    step s = refuseCommand s.takeRequest := by
  simp only [step, husel, hphase, hreq, decodeCommand, hdec]

end

/-- Settles O49: the answered state of the command, or of the refusal, carries the response the function gives. -/
theorem responseIsAFunctionOfTheRequest : Obligations.ResponseIsAFunctionOfTheRequest := by
  intro s q key data husel hphase hreq hlen hsupplied
  suffices h : ∃ dout, step s = .next (s.takeRequest.answered (answerRequest q.cmd key data) dout) by
    obtain ⟨dout, hstep⟩ := h
    exact ⟨_, hstep, rfl, rfl, rfl, husel, rfl, rfl⟩
  cases hdec : decodeFields q.cmd with
  | ok f =>
    obtain ⟨hkey, hs⟩ := hsupplied f hdec
    obtain ⟨hr, hb⟩ := decodeFields_lt hdec
    rw [step_eq_runCommand husel hphase hreq hdec, ← hkey, ← hlen]
    simpa only [answerRequest, hdec] using runCommand_answers (s := s.takeRequest) hr (hkey ▸ hb) hs
  | rejected e =>
    refine ⟨s.dout, ?_⟩
    rw [step_eq_refuseCommand husel hphase hreq hdec, refuseCommand_eq, answerRequest, hdec]
    rfl

end Sys2Proof.Machine
end

section
/-! The sequencer: phase BLOCKS against the codec, each phase's equation, and the run of the phases against the atomic
step (`10_state.md` R28). -/

namespace Sys2Proof.Machine

/-! ### Phase BLOCKS -/

/-- The working state with a block loaded into the registers A and B. -/
def Working.load (wk : Working) (m : Nat) (ab : Block wk.par.bits) : Working :=
  { wk with A := toReg ab.1, B := toReg ab.2, BLKN := m }

/-- BLK.ENC or BLK.DEC on a block loaded into the registers. -/
theorem Working.blk_load (wk : Working) (m : Nat) (ab : Block wk.par.bits) :
    wk.SameButBlock (wk.load m ab).blk ∧
      toWord wk.par.bits (wk.load m ab).blk.A = (blockFn wk.par.dir wk.par.r.toNat wk.table ab).1 ∧
      toWord wk.par.bits (wk.load m ab).blk.B = (blockFn wk.par.dir wk.par.r.toNat wk.table ab).2 := by
  have hw := Width.bits_le wk.par.w
  obtain ⟨hsame, hA, hB⟩ := Working.blk_spec (wk.load m ab)
  have hblock : (wk.load m ab).block = ab := Prod.ext (toWord_toReg hw ab.1) (toWord_toReg hw ab.2)
  rw [hblock] at hA hB
  exact ⟨.trans ⟨rfl⟩ hsame, by rw [hA]; exact toWord_toReg hw _, by rw [hB]; exact toWord_toReg hw _⟩

section
variable (w : Width) (F : Block w.bits → Block w.bits) (a b : Word w)

/-- The bytes of one pair of words transformed. -/
theorem joinWords_applyPairs_pair :
    joinWords w (applyPairs F [a, b]) = toLE w.bytes (F (a, b)).1 ++ toLE w.bytes (F (a, b)).2 := by
  simp [joinWords, applyPairs]

/-- The first pair's bytes come first. -/
theorem joinWords_applyPairs_cons (ws : List (Word w)) :
    joinWords w (applyPairs F (a :: b :: ws)) =
      joinWords w (applyPairs F [a, b]) ++ joinWords w (applyPairs F ws) := by
  simp [joinWords, applyPairs]

end

/-- A run of bytes read is read in two parts. -/
theorem Memory.readN_split {m : Memory} {a k l : Nat} {bs : List Byte} (h : m.readN a (k + l) = some bs) :
    m.readN a k = some (bs.take k) ∧ m.readN (a + k) l = some (bs.drop k) := by
  have hl := Memory.readN_length h
  refine ⟨Memory.readN_part h (k := 0) (by omega), ?_⟩
  rw [Memory.readN_part h (k := k) le_rfl, List.take_of_length_le (by simp; omega)]

/-- A block of phase BLOCKS whose two words are supplied: the bytes of the pair transformed go to the block's place in
DOUT, and the tables and parameters stay. -/
theorem blocksLoop_succ {s : State} {p : Params} {n m a : Nat} {bsA bsB : List Byte} (hp : s.work.par = p)
    (ha : a = m * 2 * p.u) (hA : s.din.readN a p.u = some bsA) (hB : s.din.readN (a + p.u) p.u = some bsB) :
    ∃ wk, s.work.SameButBlock wk ∧
      blocksLoop (n + 1) m s = blocksLoop n (m + 1) (s.wrote wk a (joinWords p.w
        (applyPairs (p.blockUnder s.work.S) [fromLE p.bits bsA, fromLE p.bits bsB]))) := by
  subst hp ha
  obtain ⟨hsame, hblkA, hblkB⟩ := s.work.blk_load m (fromLE s.work.par.bits bsA, fromLE s.work.par.bits bsB)
  refine ⟨_, hsame, ?_⟩
  rw [joinWords_applyPairs_pair, State.wrote, Memory.writeN_append, toLE_length]
  simp only [blocksLoop, hA, hB]
  rw [Params.blockUnder, ← Working.table, ← hblkA, ← hblkB]
  rfl

/-- Phase BLOCKS stops at a data byte that is not supplied (notes/assumptions/8.md). -/
theorem blocksLoop_of_absent {s : State} {p : Params} {n m a : Nat} (hp : s.work.par = p) (ha : a = m * 2 * p.u)
    (hdata : s.din.readN a (n * (2 * p.u)) = none) : blocksLoop n m s = .fault (.byteAbsent .din) := by
  induction n generalizing m a s with
  | zero => simp [Memory.readN] at hdata
  | succ n ih =>
    cases hA : s.din.readN a p.u with
    | none => subst hp ha; simp only [blocksLoop, hA]
    | some bsA =>
      cases hB : s.din.readN (a + p.u) p.u with
      | none => subst hp ha; simp only [blocksLoop, hA, hB]
      | some bsB =>
        obtain ⟨wk, hsame, hblock⟩ := blocksLoop_succ (n := n) hp ha hA hB
        have hrest : s.din.readN (a + (p.u + p.u)) (n * (2 * p.u)) = none := by
          refine Option.eq_none_iff_forall_ne_some.2 fun bs hbs => ?_
          have hall := Memory.readN_append (Memory.readN_append hA hB) hbs
          rw [show p.u + p.u + n * (2 * p.u) = (n + 1) * (2 * p.u) by ring, hdata] at hall
          cases hall
        rw [hblock]
        exact ih (hsame.par.trans hp) (by rw [ha]; ring) hrest

/-- Phase BLOCKS on supplied data does what CDC.SPLIT, CDC.APPLY and CDC.JOIN do: n blocks from block m on, transformed
under the table S, stand at their places in DOUT. -/
theorem blocksLoop_of_supplied {s : State} {p : Params} {n m a : Nat} {bs : List Byte} (hp : s.work.par = p)
    (ha : a = m * 2 * p.u) (hdata : s.din.readN a (n * (2 * p.u)) = some bs) :
    ∃ wk, wk.par = p ∧ blocksLoop n m s =
      .next (s.wrote wk a (joinWords p.w (applyPairs (p.blockUnder s.work.S) (splitWords p.w (2 * n) bs)))) := by
  induction n generalizing m a s bs with
  | zero => exact ⟨s.work, hp, rfl⟩
  | succ n ih =>
    rw [show (n + 1) * (2 * p.u) = p.u + (p.u + n * (2 * p.u)) by ring] at hdata
    obtain ⟨hA, hrest⟩ := Memory.readN_split hdata
    obtain ⟨hB, hrest⟩ := Memory.readN_split hrest
    obtain ⟨wk, hsame, hblock⟩ := blocksLoop_succ (n := n) hp ha hA hB
    have hlen : (joinWords p.w (applyPairs (p.blockUnder s.work.S)
        [fromLE p.bits (bs.take p.u), fromLE p.bits ((bs.drop p.u).take p.u)])).length = p.u + p.u := by
      rw [joinWords_applyPairs_pair, List.length_append, toLE_length, toLE_length]
    rw [Nat.add_assoc, ← hlen] at hrest
    obtain ⟨wk', hpar, hloop⟩ := ih (m := m + 1) (s := s.wrote wk a _) (hsame.par.trans hp)
      (by rw [hlen, ha]; ring) hrest
    have hS : wk.S = s.work.S := by rw [hsame.eq]
    rw [State.wrote_work, hS, State.wrote_wrote, ← joinWords_applyPairs_cons] at hloop
    exact ⟨wk', hpar, hblock.trans hloop⟩

/-- A valid length is a whole number of blocks of two words. -/
theorem Params.two_mul_blocks {p : Params} (hv : validLength p.w p.N = true) : 2 * (p.N / (2 * p.u)) = p.N / p.u := by
  have heven : p.N / p.u % 2 = 0 := ((validLength_iff _ _).1 hv).2
  rw [Nat.mul_comm 2 p.u, ← Nat.div_div_eq_div_mul]
  omega

theorem Params.blocks_mul_bytes {p : Params} (hv : validLength p.w p.N = true) :
    p.N / (2 * p.u) * (2 * p.u) = p.N := by
  rw [← Nat.mul_assoc, Nat.mul_comm _ 2, Params.two_mul_blocks hv, Params.words_mul_bytes hv]

/-! ### Running phases -/

/-- The state with the sequencer in a phase. -/
def State.inPhase (s : State) (ph : Phase) : State := { s with phase := ph }

theorem goto_eq (ph : Phase) (s : State) : goto ph s = .next (s.inPhase ph) := rfl

section
variable {s : State} {p : Params} {q : Request}

/-- IDLE goes on to DECODE when a request waits. -/
theorem phaseStep_request (hphase : s.phase = .idle) (hreq : s.req = some q) :
    phaseStep s = .next (s.inPhase .decode) := by
  simp only [phaseStep, hphase, hreq, goto_eq]

/-- DECODE of a legal word takes the request and fixes the parameters. -/
theorem phaseStep_decode_ok {f : Fields} (hphase : s.phase = .decode) (hreq : s.req = some q)
    (hdec : decodeFields q.cmd = .ok f) :
    phaseStep s = .next (start (Params.ofCommand f.dir f.w f.r f.b q.len) s.takeRequest) := by
  simp only [phaseStep, hphase, hreq, hdec]

/-- DECODE of any other word takes the request and raises ILLEGAL_CMD. -/
theorem phaseStep_decode_rejected {e : Reject} (hphase : s.phase = .decode) (hreq : s.req = some q)
    (hdec : decodeFields q.cmd = .rejected e) : phaseStep s = .next (raise .illegalCmd s.takeRequest) := by
  simp only [phaseStep, hphase, hreq, hdec]

/-- VALIDATE goes on to EXPAND on a valid length and fails on any other (`44_block_codec.md` R190). -/
theorem phaseStep_validate (hphase : s.phase = .validate) (hp : s.work.par = p) :
    phaseStep s =
      if validLength p.w p.N then .next (s.inPhase .expand) else .next (raise .wrongInputSize s) := by
  subst hp
  simp only [phaseStep, hphase, goto_eq]

theorem phaseStep_expand (hphase : s.phase = .expand) : phaseStep s = andThen (execKsExpand s) (goto .mix) := by
  simp only [phaseStep, hphase]

theorem phaseStep_mix (hphase : s.phase = .mix) : phaseStep s = .next ((s.onWork Working.mix).inPhase .blocks) := by
  simp only [phaseStep, hphase, execKsMix, andThen_next, goto_eq]

/-- BLOCKS transforms the N / (2u) blocks. -/
theorem phaseStep_blocks (hphase : s.phase = .blocks) (hp : s.work.par = p) :
    phaseStep s = andThen (blocksLoop (p.N / (2 * p.u)) 0 s) (goto .respond) := by
  subst hp
  simp only [phaseStep, hphase]

theorem phaseStep_respond (hphase : s.phase = .respond) : phaseStep s = respond s := by
  simp only [phaseStep, hphase]

end

/-- With the sequencer idle no further phase runs. -/
theorem runPhases_of_idle {s : State} (hphase : s.phase = .idle) (n : Nat) : runPhases n s = .next s := by
  cases n with
  | zero => rfl
  | succ n => rw [runPhases, if_pos hphase]

/-- Inside a command one phase runs and then the others. -/
theorem runPhases_succ {s : State} {ph : Phase} (hphase : s.phase = ph) (hidle : ph ≠ .idle) (n : Nat) :
    runPhases (n + 1) s = andThen (phaseStep s) (runPhases n) := by
  rw [runPhases, if_neg (hphase ▸ hidle)]

/-- RESPOND is the last phase. -/
theorem runPhases_respond {s : State} (hphase : s.phase = .respond) (n : Nat) : runPhases (n + 1) s = respond s := by
  rw [runPhases_succ hphase (by decide), phaseStep_respond hphase]
  cases hres : respond s with
  | next t =>
    obtain ⟨bs, rfl, -, -⟩ := respond_next hres
    exact runPhases_of_idle rfl n
  | fault e => rfl
  | refused e => rfl

section
variable {s : State} {p : Params} {key data : List Byte}

/-- EXPAND stops at a key byte that is not supplied. -/
theorem runPhases_expand_of_absent (hkey : s.keyBytes = none) (n : Nat) :
    runPhases (n + 1) (s.inPhase .expand) = .fault (.byteAbsent .key) := by
  rw [runPhases_succ (ph := .expand) rfl (by decide), phaseStep_expand rfl,
    execKsExpand_none (s := s.inPhase .expand) hkey, andThen_fault, andThen_fault]

/-- EXPAND and MIX on supplied key bytes are the key schedule. -/
theorem runPhases_expand_of_supplied (hkey : s.keyBytes = some key) (n : Nat) :
    runPhases (n + 2) (s.inPhase .expand) = runPhases n ((s.scheduled key).inPhase .blocks) := by
  rw [runPhases_succ (ph := .expand) rfl (by decide), phaseStep_expand rfl,
    execKsExpand_some (s := s.inPhase .expand) hkey, andThen_next, goto_eq, andThen_next,
    runPhases_succ (ph := .mix) rfl (by decide), phaseStep_mix rfl, andThen_next]
  rfl

/-- BLOCKS stops at a data byte that is not supplied. -/
theorem runPhases_blocks_of_absent (hp : s.work.par = p) (hv : validLength p.w p.N = true)
    (hdata : s.din.readN 0 p.N = none) (n : Nat) :
    runPhases (n + 1) (s.inPhase .blocks) = .fault (.byteAbsent .din) := by
  have hblocks : blocksLoop (p.N / (2 * p.u)) 0 (s.inPhase .blocks) = .fault (.byteAbsent .din) :=
    blocksLoop_of_absent (a := 0) hp (by simp) (by rw [Params.blocks_mul_bytes hv]; exact hdata)
  rw [runPhases_succ (ph := .blocks) rfl (by decide), phaseStep_blocks (s := s.inPhase .blocks) rfl hp, hblocks,
    andThen_fault, andThen_fault]

/-- BLOCKS and RESPOND on supplied data: the data transformed under the table S are in DOUT when the response is
given. -/
theorem runPhases_blocks_of_supplied (hp : s.work.par = p) (hv : validLength p.w p.N = true)
    (hdata : s.din.readN 0 p.N = some data) (n : Nat) :
    ∃ wk, wk.par = p ∧ runPhases (n + 2) (s.inPhase .blocks) = respond ((s.inPhase .respond).wrote wk 0
      (joinWords p.w (applyPairs (p.blockUnder s.work.S) (splitWords p.w (p.N / p.u) data)))) := by
  obtain ⟨wk, hpar, hblocks⟩ := blocksLoop_of_supplied (s := s.inPhase .blocks) (m := 0) (a := 0)
    (n := p.N / (2 * p.u)) hp (by simp) (by rw [Params.blocks_mul_bytes hv]; exact hdata)
  rw [Params.two_mul_blocks hv] at hblocks
  refine ⟨wk, hpar, ?_⟩
  rw [runPhases_succ (ph := .blocks) rfl (by decide), phaseStep_blocks (s := s.inPhase .blocks) rfl hp, hblocks,
    andThen_next, goto_eq, andThen_next]
  exact runPhases_respond rfl n

/-- EXPAND, MIX, BLOCKS and RESPOND one after another give what the atomic command gives after its validation, stops
included. -/
theorem runPhases_expand_eq_encipher (hp : s.work.par = p) (ho : s.outcome = .ok) (hv : validLength p.w p.N = true) :
    runPhases 4 (s.inPhase .expand) = encipher s := by
  cases hkey : s.keyBytes with
  | none => rw [encipher_of_key_absent hkey, runPhases_expand_of_absent hkey]
  | some key =>
    rw [runPhases_expand_of_supplied hkey]
    cases hdata : s.din.readN 0 p.N with
    | none =>
      rw [encipher_of_data_absent hp hv hkey hdata,
        runPhases_blocks_of_absent (s := s.scheduled key) hp hv hdata]
    | some data =>
      have hN : data.length = p.N := Memory.readN_length hdata
      obtain ⟨wk, hpar, hblocks⟩ := runPhases_blocks_of_supplied (s := s.scheduled key) hp hv hdata 0
      rw [joinWords_applyPairs_scheduled hp hkey hN] at hblocks
      rw [encipher_of_supplied hp ho hv hkey hdata, hblocks]
      exact respond_wrote (s := (s.scheduled key).inPhase .respond) ho
        (by rw [hpar, Params.output_length key hv hN])

/-- VALIDATE and the phases after it: the command's own branch on the length. -/
theorem runPhases_start (p : Params) (s : State) :
    runPhases 5 (start p s) =
      if validLength p.w p.N then encipher (start p s) else respond (raise .wrongInputSize (start p s)) := by
  rw [runPhases_succ (start_phase p s) (by decide), phaseStep_validate (p := p) rfl rfl]
  by_cases hv : validLength p.w p.N
  · rw [if_pos hv, if_pos hv]
    exact runPhases_expand_eq_encipher (s := start p s) rfl rfl hv
  · rw [if_neg hv, if_neg hv]
    exact runPhases_respond (s := raise .wrongInputSize (start p s)) rfl 3

end

/-- Settles O52: DECODE as the step decodes, then VALIDATE and the phases after it as the command runs. -/
theorem sequencerRefinesTheStep : Obligations.SequencerRefinesTheStep := by
  intro s husel hphase hreq
  obtain ⟨q, hq⟩ := Option.isSome_iff_exists.1 hreq
  rw [phaseStep_request hphase hq, andThen_next, runPhases_succ (ph := .decode) rfl (by decide)]
  cases hdec : decodeFields q.cmd with
  | ok f =>
    rw [step_eq_runCommand husel hphase hq hdec, phaseStep_decode_ok (s := s.inPhase .decode) rfl hq hdec, andThen_next]
    exact runPhases_start _ s.takeRequest
  | rejected e =>
    rw [step_eq_refuseCommand husel hphase hq hdec, phaseStep_decode_rejected (s := s.inPhase .decode) rfl hq hdec,
      andThen_next]
    exact runPhases_respond (s := raise .illegalCmd s.takeRequest) rfl 4

end Sys2Proof.Machine
end

section
/-! What a completed step leaves: the engine idle after the phases, and the frame of each unit operation (`10_state.md`
R22 to R28). -/

namespace Sys2Proof.Machine

/-! ### The engine is idle after a step -/

/-- How many phases are still to run, the current one included (`10_state.md` R28). -/
@[simp] def Phase.remaining : Phase → Nat
  | .idle => 0
  | .respond => 1
  | .blocks => 2
  | .mix => 3
  | .expand => 4
  | .validate => 5
  | .decode => 6

/-- Blocks write DOUT and the working state alone. -/
theorem blocksLoop_next {s t : State} {n m : Nat} (h : blocksLoop n m s = .next t) :
    ∃ wk a bs, t = s.wrote wk a bs := by
  cases hdata : s.din.readN (m * 2 * s.work.par.u) (n * (2 * s.work.par.u)) with
  | none => rw [blocksLoop_of_absent rfl rfl hdata] at h; cases h
  | some bs =>
    obtain ⟨wk, -, hblocks⟩ := blocksLoop_of_supplied rfl rfl hdata
    rw [hblocks] at h
    cases h
    exact ⟨_, _, _, rfl⟩

/-- A phase that completes brings the command nearer to its response, and selects no unit operation. -/
theorem phaseStep_next {s t : State} (hidle : s.phase ≠ .idle) (h : phaseStep s = .next t) :
    t.phase.remaining < s.phase.remaining ∧ t.usel = s.usel := by
  cases hphase : s.phase <;> simp only [phaseStep, hphase] at h
  case idle => exact absurd hphase hidle
  case decode =>
    split at h
    · cases h
    · split at h <;> cases h <;> exact ⟨by simp, rfl⟩
  case validate => split at h <;> cases h <;> exact ⟨by simp, rfl⟩
  case expand =>
    obtain ⟨s', hexpand, hgoto⟩ := andThen_eq_next.1 h
    obtain ⟨key, -, rfl⟩ := execKsExpand_next hexpand
    cases hgoto
    exact ⟨by simp, rfl⟩
  case mix => cases h; exact ⟨by simp, rfl⟩
  case blocks =>
    obtain ⟨s', hblocks, hgoto⟩ := andThen_eq_next.1 h
    obtain ⟨wk, a, bs, rfl⟩ := blocksLoop_next hblocks
    cases hgoto
    exact ⟨by simp, rfl⟩
  case respond =>
    obtain ⟨bs, rfl, -, -⟩ := respond_next h
    exact ⟨by simp, rfl⟩

theorem Phase.remaining_eq_zero {ph : Phase} : ph.remaining = 0 ↔ ph = .idle := by
  cases ph <;> simp

/-- A run of as many phases as remain, if it completes, ends idle. -/
theorem runPhases_next {n : Nat} {s t : State} (hn : s.phase.remaining ≤ n) (h : runPhases n s = .next t) :
    t.phase = .idle ∧ t.usel = s.usel := by
  induction n generalizing s with
  | zero =>
    cases h
    exact ⟨Phase.remaining_eq_zero.1 (Nat.le_zero.1 hn), rfl⟩
  | succ n ih =>
    by_cases hidle : s.phase = .idle
    · rw [runPhases_of_idle hidle] at h
      cases h
      exact ⟨hidle, rfl⟩
    · rw [runPhases_succ rfl hidle] at h
      obtain ⟨s', hphase, hrest⟩ := andThen_eq_next.1 h
      obtain ⟨hless, husel⟩ := phaseStep_next hidle hphase
      obtain ⟨hend, husel'⟩ := ih (by omega) hrest
      exact ⟨hend, husel'.trans husel⟩

theorem Phase.remaining_le (ph : Phase) : ph.remaining ≤ 6 := by cases ph <;> decide

/-- Inside a command the step runs the phases that remain. -/
theorem step_eq_resume {s : State} (husel : s.usel = none) (hidle : s.phase ≠ .idle) : step s = resume s := by
  unfold step
  rw [husel]
  cases hphase : s.phase with
  | idle => exact absurd hphase hidle
  | _ => rfl

/-- Settles O53: with a request the step is the run of the phases, which ends idle, and without one it waits. -/
theorem stepEndsIdle : Obligations.StepEndsIdle := by
  intro s t husel h
  by_cases hidle : s.phase = .idle
  · cases hreq : s.req with
    | none =>
      rw [step_eq_next_self_of_waiting husel hidle hreq] at h
      cases h
      exact ⟨hidle, husel⟩
    | some q =>
      rw [← sequencerRefinesTheStep s husel hidle (by rw [hreq]; rfl), phaseStep_request hidle hreq,
        andThen_next] at h
      obtain ⟨hend, husel'⟩ := runPhases_next (Phase.remaining_le _) h
      exact ⟨hend, husel'.trans husel⟩
  · rw [step_eq_resume husel hidle] at h
    obtain ⟨hend, husel'⟩ := runPhases_next (Phase.remaining_le _) h
    exact ⟨hend, husel'.trans husel⟩

/-! ### What a unit operation writes -/

/-- What of the tables S and L and the generator G an instruction may write (`10_state.md` R22, R23, R24). -/
structure Working.WrittenBy (i : Instr) (wk wk' : Working) : Prop where
  S : i ≠ .seqTake → i ≠ .ksMix → i ≠ .ksSchedule → wk'.S = wk.S
  L : i ≠ .ksExpand → i ≠ .ksMix → i ≠ .ksSchedule → wk'.L = wk.L
  G : i ≠ .seqRestart → i ≠ .seqNext → i ≠ .seqTake → i ≠ .ksMix → i ≠ .ksSchedule → wk'.G = wk.G

theorem Working.WrittenBy.of_kept {i : Instr} {wk wk' : Working} (hS : wk'.S = wk.S) (hL : wk'.L = wk.L)
    (hG : wk'.G = wk.G) : Working.WrittenBy i wk wk' :=
  ⟨fun _ _ _ => hS, fun _ _ _ => hL, fun _ _ _ _ _ => hG⟩

/-- A block in the registers beside a word list in the port leaves the tables and the generator as they were. -/
theorem Working.SameButBlock.writtenBy {i : Instr} {wk wk' : Working} {ws : List Reg}
    (h : (wk.setWords ws).SameButBlock wk') : Working.WrittenBy i wk wk' := by
  rw [h.eq]
  exact .of_kept rfl rfl rfl

/-- The key schedule's two operations may write all three. -/
theorem Working.WrittenBy.of_mix {i : Instr} (h : i = .ksMix ∨ i = .ksSchedule) (wk wk' : Working) :
    Working.WrittenBy i wk wk' := by
  obtain rfl | rfl := h <;> constructor <;> simp

/-- CDC.SPLIT puts a word list in the port, and may draw a free value for it. -/
theorem execCdcSplit_next {s t : State} (h : execCdcSplit s = .next t) :
    ∃ ws n, t = { s with work := s.work.setWords ws, draws := n } := by
  dsimp only [execCdcSplit] at h
  split at h
  · split at h <;> cases h <;> exact ⟨_, _, rfl⟩
  · cases h

/-- CDC.APPLY puts a word list in the port and a block in the registers, and may draw a free value. -/
theorem execCdcApply_next {s t : State} (h : execCdcApply s = .next t) :
    ∃ ws wk n, (s.work.setWords ws).SameButBlock wk ∧ t = { s with work := wk, draws := n } := by
  obtain ⟨wk, hsame, ⟨-, hrun, -⟩ | ⟨-, hrun, -⟩⟩ := execCdcApply_cases (s := s) rfl <;>
    rw [hrun] at h <;> cases h <;> exact ⟨_, wk, _, hsame, rfl⟩

/-- All a unit operation can do: CDC.VALIDATE leaves the state or raises the failure, CDC.JOIN writes DOUT, and any
other writes the working state, with the tables kept but for the operation's own, and may draw free values. -/
theorem exec_unit_next {i : Instr} {s t : State} (hunit : isCommand i = false) (h : exec i s = .next t) :
    (i = .cdcValidate ∧ (t = s ∨ t = raise .wrongInputSize s)) ∨
    (i = .cdcJoin ∧ ∃ m, t = { s with dout := m }) ∨
    ∃ wk n, t = { s with work := wk, draws := n } ∧ Working.WrittenBy i s.work wk := by
  cases i
  case enc8 | dec8 | enc16 | dec16 | enc32 | dec32 | enc64 | dec64 | enc128 | dec128 => cases hunit
  case cdcValidate =>
    refine .inl ⟨rfl, ?_⟩
    dsimp only [exec, execCdcValidate] at h
    split at h <;> cases h
    · exact .inl rfl
    · exact .inr rfl
  case cdcJoin =>
    refine .inr (.inl ⟨rfl, ?_⟩)
    dsimp only [exec, execCdcJoin] at h
    split at h <;> cases h
    exact ⟨_, rfl⟩
  all_goals refine .inr (.inr ?_)
  case wAdd | wSub | wXor | wRotl | wRotr | wFromByte | wToLe | wFromLe | wConstP | wConstQ | blkEnc | blkDec =>
    cases h
    exact ⟨_, _, rfl, .of_kept rfl rfl rfl⟩
  case seqRestart | seqNext =>
    cases h
    exact ⟨_, _, rfl, ⟨fun _ _ _ => rfl, fun _ _ _ => rfl, by simp⟩⟩
  case seqTake =>
    dsimp only [exec, execSeqTake] at h
    split at h <;> cases h
    exact ⟨_, _, rfl, ⟨by simp, fun _ _ _ => rfl, by simp⟩⟩
  case ksExpand =>
    obtain ⟨key, -, rfl⟩ := execKsExpand_next h
    exact ⟨_, _, rfl, ⟨fun _ _ _ => rfl, by simp, fun _ _ _ _ _ => rfl⟩⟩
  case ksMix =>
    cases h
    exact ⟨_, _, rfl, .of_mix (.inl rfl) _ _⟩
  case ksSchedule =>
    obtain ⟨s', hexpand, hmix⟩ := andThen_eq_next.1 h
    obtain ⟨key, -, rfl⟩ := execKsExpand_next hexpand
    cases hmix
    exact ⟨_, _, rfl, .of_mix (.inr rfl) _ _⟩
  case cdcSplit =>
    obtain ⟨ws, n, rfl⟩ := execCdcSplit_next h
    exact ⟨_, _, rfl, .of_kept rfl rfl rfl⟩
  case cdcApply =>
    obtain ⟨ws, wk, n, hsame, rfl⟩ := execCdcApply_next h
    exact ⟨_, _, rfl, hsame.writtenBy⟩

/-- Settles O56, from all that a unit operation can do. -/
theorem tablesAreWrittenOnlyByTheirOperations : Obligations.TablesAreWrittenOnlyByTheirOperations := by
  intro i s t hunit h
  obtain ⟨hi, rfl | rfl⟩ | ⟨hi, m, rfl⟩ | ⟨wk, n, rfl, ⟨hS, hL, hG⟩⟩ := exec_unit_next hunit h
  · simp
  · simp [hi]
  · simp [hi]
  · exact ⟨hS, hL, hG, fun _ => rfl, fun _ => ⟨rfl, rfl⟩⟩

/-- Settles O60, by cases on the status. -/
theorem statusCodes : Obligations.StatusCodes :=
  ⟨rfl, rfl, rfl, fun c => by cases c <;> decide⟩

end Sys2Proof.Machine
end

section
/-! The byte buffers under instructions and steps: where a unit operation stops, all that a completed command does, and
that KEY and DIN are only read (`20_memory.md` R51, R52, R53). -/

namespace Sys2Proof.Machine

/-! ### Where unit operations stop -/

/-- S has no entry for a term beyond 512 (`10_state.md` R22; notes/assumptions/13.md). -/
theorem execSeqTake_beyond {s : State} (h : 512 < s.work.ports.count) : execSeqTake s = .fault .noSuchEntry :=
  if_neg (Nat.not_le.2 h)

/-- DOUT has no address for a byte at N or beyond (`20_memory.md` R53; notes/assumptions/13.md). -/
theorem execCdcJoin_beyond {s : State} (h : s.work.par.N < s.work.ports.words.length * s.work.par.u) :
    execCdcJoin s = .fault (.noSuchAddress .dout) :=
  if_neg (Nat.not_le.2 h)

/-- Settles O37, each operation by its own stop. -/
theorem unitOperationStops : Obligations.UnitOperationStops := fun _ =>
  ⟨execSeqTake_beyond, fun hkey => ⟨execKsExpand_none hkey, execKsSchedule_none hkey⟩, execCdcSplit_none rfl,
    execCdcJoin_beyond⟩

/-! ### All that a command can do -/

/-- A command that passes validation and completes has been supplied its bytes: it answers OK with N bytes, which it
has written to DOUT from address 0 on. -/
theorem encipher_next {s t : State} {p : Params} (hp : s.work.par = p) (ho : s.outcome = .ok)
    (hv : validLength p.w p.N = true) (h : encipher s = .next t) :
    ∃ bs, bs.length = p.N ∧ t = s.answered { status := .ok, out := bs } (s.dout.writeN 0 bs) := by
  cases hkey : s.keyBytes with
  | none => rw [encipher_of_key_absent hkey] at h; cases h
  | some key =>
    cases hdata : s.din.readN 0 p.N with
    | none => rw [encipher_of_data_absent hp hv hkey hdata] at h; cases h
    | some data =>
      rw [encipher_of_supplied hp ho hv hkey hdata] at h
      cases h
      exact ⟨_, Params.output_length key hv (Memory.readN_length hdata), rfl⟩

/-- A command that completes fails its validation and leaves DOUT alone, or answers OK with the N bytes it writes to
DOUT from address 0 on (`60_exceptions.md` R225; `20_memory.md` R53). -/
theorem runCommand_next {dir : Dir} {w : Width} {r klen len : Nat} {s t : State}
    (h : runCommand dir w r klen len s = .next t) :
    t = s.answered { status := .wrongInputSize, out := [] } s.dout ∨
      ∃ bs, bs.length = len ∧ t = s.answered { status := .ok, out := bs } (s.dout.writeN 0 bs) := by
  cases hv : validLength w len with
  | false =>
    rw [runCommand_of_invalid hv] at h
    cases h
    exact .inl rfl
  | true =>
    rw [runCommand, if_pos hv] at h
    exact .inr (encipher_next (s := start (Params.ofCommand dir w r klen len) s) rfl rfl hv h)

/-- Settles O43, from all that a command can do. -/
theorem commandWritesOnlyItsOutput : Obligations.CommandWritesOnlyItsOutput := by
  intro dir w r klen len s t h
  rw [exec_command] at h
  obtain rfl | ⟨bs, rfl, rfl⟩ := runCommand_next h
  · exact ⟨_, rfl, fun hok => by simp at hok, fun _ => ⟨rfl, rfl⟩⟩
  · exact ⟨_, rfl, fun _ => ⟨Memory.readN_writeN s.dout 0 bs, Memory.writeN_sameOutside s.dout 0 bs⟩,
      fun hfail => absurd rfl hfail⟩

/-! ### KEY and DIN are only read -/

/-- KEY and DIN hold what they held (`20_memory.md` R51, R52). -/
structure State.SameInputs (s t : State) : Prop where
  key : t.key = s.key
  din : t.din = s.din

theorem State.SameInputs.refl (s : State) : s.SameInputs s := ⟨rfl, rfl⟩

theorem State.SameInputs.trans {s t u : State} (h₁ : s.SameInputs t) (h₂ : t.SameInputs u) : s.SameInputs u :=
  ⟨h₂.key.trans h₁.key, h₂.din.trans h₁.din⟩

/-- The ten commands are those of a direction and a width (`30_encoding.md` R89). -/
theorem eq_command_of_isCommand : ∀ {i : Instr}, isCommand i = true →
    ∃ dir w r klen len, i = Instr.command dir w r klen len
  | .enc8 r klen len, _ => ⟨.enc, .w8, r, klen, len, rfl⟩
  | .dec8 r klen len, _ => ⟨.dec, .w8, r, klen, len, rfl⟩
  | .enc16 r klen len, _ => ⟨.enc, .w16, r, klen, len, rfl⟩
  | .dec16 r klen len, _ => ⟨.dec, .w16, r, klen, len, rfl⟩
  | .enc32 r klen len, _ => ⟨.enc, .w32, r, klen, len, rfl⟩
  | .dec32 r klen len, _ => ⟨.dec, .w32, r, klen, len, rfl⟩
  | .enc64 r klen len, _ => ⟨.enc, .w64, r, klen, len, rfl⟩
  | .dec64 r klen len, _ => ⟨.dec, .w64, r, klen, len, rfl⟩
  | .enc128 r klen len, _ => ⟨.enc, .w128, r, klen, len, rfl⟩
  | .dec128 r klen len, _ => ⟨.dec, .w128, r, klen, len, rfl⟩

/-- An instruction, command or unit operation, writes none of KEY, DIN and the request (`10_state.md` R29). -/
theorem exec_keeps_inputs {i : Instr} {s t : State} (h : exec i s = .next t) : s.SameInputs t ∧ t.req = s.req := by
  cases hcmd : isCommand i with
  | true =>
    obtain ⟨dir, w, r, klen, len, rfl⟩ := eq_command_of_isCommand hcmd
    rw [exec_command] at h
    obtain rfl | ⟨bs, -, rfl⟩ := runCommand_next h <;> exact ⟨⟨rfl, rfl⟩, rfl⟩
  | false =>
    obtain ⟨-, rfl | rfl⟩ | ⟨-, m, rfl⟩ | ⟨wk, n, rfl, -⟩ := exec_unit_next hcmd h <;> exact ⟨⟨rfl, rfl⟩, rfl⟩

/-- A phase writes neither KEY nor DIN. -/
theorem phaseStep_keeps_inputs {s t : State} (h : phaseStep s = .next t) : s.SameInputs t := by
  cases hphase : s.phase
  case idle =>
    cases hreq : s.req with
    | none => simp only [phaseStep, hphase, hreq] at h; cases h; exact .refl _
    | some q => rw [phaseStep_request hphase hreq] at h; cases h; exact ⟨rfl, rfl⟩
  case decode =>
    cases hreq : s.req with
    | none => simp only [phaseStep, hphase, hreq] at h; cases h
    | some q =>
      cases hdec : decodeFields q.cmd with
      | ok f => rw [phaseStep_decode_ok hphase hreq hdec] at h; cases h; exact ⟨rfl, rfl⟩
      | rejected e => rw [phaseStep_decode_rejected hphase hreq hdec] at h; cases h; exact ⟨rfl, rfl⟩
  case validate =>
    rw [phaseStep_validate hphase rfl] at h
    split at h <;> cases h <;> exact ⟨rfl, rfl⟩
  case expand =>
    rw [phaseStep_expand hphase] at h
    obtain ⟨s', hexpand, hgoto⟩ := andThen_eq_next.1 h
    obtain ⟨key, -, rfl⟩ := execKsExpand_next hexpand
    cases hgoto
    exact ⟨rfl, rfl⟩
  case mix =>
    rw [phaseStep_mix hphase] at h
    cases h
    exact ⟨rfl, rfl⟩
  case blocks =>
    rw [phaseStep_blocks hphase rfl] at h
    obtain ⟨s', hblocks, hgoto⟩ := andThen_eq_next.1 h
    obtain ⟨wk, a, bs, rfl⟩ := blocksLoop_next hblocks
    cases hgoto
    exact ⟨rfl, rfl⟩
  case respond =>
    rw [phaseStep_respond hphase] at h
    obtain ⟨bs, rfl, -, -⟩ := respond_next h
    exact ⟨rfl, rfl⟩

theorem runPhases_keeps_inputs {n : Nat} {s t : State} (h : runPhases n s = .next t) : s.SameInputs t := by
  induction n generalizing s with
  | zero => cases h; exact .refl _
  | succ n ih =>
    by_cases hidle : s.phase = .idle
    · rw [runPhases_of_idle hidle] at h
      cases h
      exact .refl _
    · rw [runPhases_succ rfl hidle] at h
      obtain ⟨s', hphase, hrest⟩ := andThen_eq_next.1 h
      exact (phaseStep_keeps_inputs hphase).trans (ih hrest)

/-- With no unit operation selected the step is a run of phases: of none while the engine waits, from DECODE on a
request, and from where the command stands inside one (`10_state.md` R28). -/
theorem step_eq_runPhases {s : State} (husel : s.usel = none) : ∃ ph, step s = runPhases 6 (s.inPhase ph) := by
  by_cases hidle : s.phase = .idle
  · cases hreq : s.req with
    | none =>
      refine ⟨.idle, ?_⟩
      rw [step_eq_next_self_of_waiting husel hidle hreq, runPhases_of_idle rfl, State.inPhase, ← hidle]
    | some q =>
      refine ⟨.decode, ?_⟩
      rw [← sequencerRefinesTheStep s husel hidle (by rw [hreq]; rfl), phaseStep_request hidle hreq, andThen_next]
  · exact ⟨s.phase, step_eq_resume husel hidle⟩

/-- A reserved unit code is refused (`30_encoding.md` R91; notes/assumptions/7.md). -/
theorem step_eq_refused_of_usel {s : State} {uop : BitVec 5} {e : Reject} (husel : s.usel = some uop)
    (hdec : decode (.unit uop) = .rejected e) : step s = .refused .reservedUnitCode := by
  have hunit : decodeUnit uop = .rejected e := hdec
  simp only [step, husel, hunit]

/-- A step, of a unit operation, a command or the rest of a command, writes neither KEY nor DIN. -/
theorem step_keeps_inputs {s t : State} (h : step s = .next t) : s.SameInputs t := by
  cases husel : s.usel with
  | none =>
    obtain ⟨ph, hphases⟩ := step_eq_runPhases husel
    obtain ⟨hkey, hdin⟩ := runPhases_keeps_inputs (hphases ▸ h)
    exact ⟨hkey, hdin⟩
  | some uop =>
    cases hdec : decode (.unit uop) with
    | ok i =>
      rw [step_eq_exec_of_usel husel hdec] at h
      obtain ⟨⟨hkey, hdin⟩, -⟩ := exec_keeps_inputs h
      exact ⟨hkey, hdin⟩
    | rejected e => rw [step_eq_refused_of_usel husel hdec] at h; cases h

/-- Settles O54, an instruction and a step each by its frame. -/
theorem keyAndDataAreNeverWritten : Obligations.KeyAndDataAreNeverWritten := by
  refine ⟨fun i s t h => ?_, fun s t h => ?_⟩
  · obtain ⟨⟨hkey, hdin⟩, hreq⟩ := exec_keeps_inputs h
    exact ⟨hkey, hdin, hreq⟩
  · obtain ⟨hkey, hdin⟩ := step_keeps_inputs h
    exact ⟨hkey, hdin⟩

end Sys2Proof.Machine
end

section
/-! The encoding: the fields of a command word, the decoder characterised by them, and the statements about codes and the
assembler (`30_encoding.md` R80 to R97). -/

namespace Sys2Proof

open Machine

/-! ### Words put together from fields -/

/-- A command word is its six fields, reserved ones included, most significant first (`30_encoding.md` R81). -/
theorem append_wordFields (cmd : BitVec 32) :
    cmd.extractLsb' 24 8 ++ cmd.extractLsb' 16 8 ++ cmd.extractLsb' 8 8 ++ cmd.extractLsb' 4 4 ++ cmd.extractLsb' 1 3 ++
      cmd.extractLsb' 0 1 = cmd := by
  rw [BitVec.extractLsb'_append_extractLsb'_eq_extractLsb' (show 24 = 16 + 8 from rfl),
    BitVec.extractLsb'_append_extractLsb'_eq_extractLsb' (show 16 = 8 + 8 from rfl),
    BitVec.extractLsb'_append_extractLsb'_eq_extractLsb' (show 8 = 4 + 4 from rfl),
    BitVec.extractLsb'_append_extractLsb'_eq_extractLsb' (show 4 = 1 + 3 from rfl),
    BitVec.extractLsb'_append_extractLsb'_eq_extractLsb' (show 1 = 0 + 1 from rfl)]
  exact BitVec.extractLsb'_eq_self

/-- Command words are equal exactly when their six fields are. -/
theorem word_eq_iff_fields {x y : BitVec 32} :
    x = y ↔ x.extractLsb' 24 8 = y.extractLsb' 24 8 ∧ x.extractLsb' 16 8 = y.extractLsb' 16 8 ∧
      x.extractLsb' 8 8 = y.extractLsb' 8 8 ∧ x.extractLsb' 4 4 = y.extractLsb' 4 4 ∧
      x.extractLsb' 1 3 = y.extractLsb' 1 3 ∧ x.extractLsb' 0 1 = y.extractLsb' 0 1 := by
  refine ⟨fun h => h ▸ ⟨rfl, rfl, rfl, rfl, rfl, rfl⟩, fun ⟨h₁, h₂, h₃, h₄, h₅, h₆⟩ => ?_⟩
  rw [← append_wordFields x, ← append_wordFields y, h₁, h₂, h₃, h₄, h₅, h₆]

/-- A mask whose bits are all 1 over a field keeps the field. -/
theorem and_eq_self_of_allOnes {n : Nat} {x m : BitVec n} (hm : m = BitVec.allOnes n) : x &&& m = x := by
  rw [hm, BitVec.and_allOnes]

/-- The mask 0xFF0000F0 keeps the two reserved fields of a command word (`30_encoding.md` R88). -/
theorem and_reservedMask_eq_zero_iff (cmd : BitVec 32) :
    cmd &&& 0xFF0000F0#32 = 0 ↔ cmd.extractLsb' 24 8 = 0 ∧ cmd.extractLsb' 4 4 = 0 := by
  rw [word_eq_iff_fields]
  simp (disch := decide) [BitVec.extractLsb'_and, and_eq_self_of_allOnes]

/-- The mask 0xFF0000FF of a row keeps the reserved fields, WSEL and DIR, which together identify the row
(`30_encoding.md` R89). -/
theorem and_rowMask_eq_iff (cmd : BitVec 32) (dir : Dir) (w : Width) :
    cmd &&& 0xFF0000FF#32 = commandWord dir w 0 0 ↔
      cmd.extractLsb' 24 8 = 0 ∧ cmd.extractLsb' 4 4 = 0 ∧ cmd.extractLsb' 1 3 = selOfWidth w ∧
        cmd.extractLsb' 0 1 = dirBit dir := by
  rw [word_eq_iff_fields]
  simp (disch := decide) [BitVec.extractLsb'_and, and_eq_self_of_allOnes, commandWord_high, commandWord_zero,
    commandWord_klen, commandWord_r, commandWord_sel, commandWord_dir]

/-- The opcode byte is at most 0x09 exactly when its reserved bits are 0 and WSEL is at most 4 (`30_encoding.md` R88). -/
theorem opcodeByte_le_iff (cmd : BitVec 32) :
    (cmd.extractLsb' 0 8).toNat ≤ 9 ↔ cmd.extractLsb' 4 4 = 0 ∧ (cmd.extractLsb' 1 3).toNat < 5 := by
  simp only [BitVec.toNat_eq, BitVec.extractLsb'_toNat, Nat.shiftRight_eq_div_pow, BitVec.ofNat_eq_ofNat,
    BitVec.toNat_ofNat]
  omega

/-- A word put together from two fields, as a number. -/
theorem toNat_append_eq_add {m n : Nat} (x : BitVec m) (y : BitVec n) :
    (x ++ y).toNat = x.toNat * 2 ^ n + y.toNat := by
  rw [BitVec.toNat_append, ← Nat.shiftLeft_add_eq_or_of_lt y.isLt, Nat.shiftLeft_eq]

/-- The command word as a number: each field at its place (`30_encoding.md` R81). -/
theorem commandWord_toNat (dir : Dir) (w : Width) (r klen : Nat) :
    (commandWord dir w r klen).toNat =
      klen % 2 ^ 8 * 2 ^ 16 + r % 2 ^ 8 * 2 ^ 8 + (selOfWidth w).toNat * 2 + (dirBit dir).toNat := by
  simp only [commandWord, toNat_append_eq_add, BitVec.toNat_ofNat]
  omega

/-! ### The decoder on command words -/

theorem widthOfSel_eq_some_iff {sel : BitVec 3} {w : Width} : widthOfSel sel = some w ↔ sel = selOfWidth w := by
  revert sel
  cases w <;> decide

/-- WSEL of 5 or more selects no width (`30_encoding.md` R83). -/
theorem widthOfSel_eq_none : ∀ {sel : BitVec 3}, 5 ≤ sel.toNat → widthOfSel sel = none := by decide

/-- WSEL of at most 4 selects a width (`30_encoding.md` R83). -/
theorem exists_width_of_sel {sel : BitVec 3} (h : sel.toNat < 5) : ∃ w, sel = selOfWidth w := by
  have hsel : (widthOfSel sel).isSome := by revert sel; decide
  obtain ⟨w, hw⟩ := Option.isSome_iff_exists.1 hsel
  exact ⟨w, widthOfSel_eq_some_iff.1 hw⟩

theorem selOfWidth_lt (w : Width) : (selOfWidth w).toNat < 5 := by cases w <;> decide

/-- w = 8 * 2^WSEL (`30_encoding.md` R83). -/
theorem bits_eq_pow_sel (w : Width) : w.bits = 8 * 2 ^ (selOfWidth w).toNat := by cases w <;> rfl

/-- The direction that bit 0 stands for (`30_encoding.md` R82). -/
theorem dirOfBit_eq_iff {bit : BitVec 1} {dir : Dir} :
    (if bit = 0 then Dir.enc else Dir.dec) = dir ↔ bit = dirBit dir := by
  revert bit
  cases dir <;> decide

/-- A word is taken apart exactly when its reserved fields are 0 and WSEL selects a width, and then into the fields of
R97. -/
theorem decodeFields_eq_ok_iff {cmd : BitVec 32} {f : Fields} :
    decodeFields cmd = .ok f ↔
      (cmd.extractLsb' 24 8 = 0 ∧ cmd.extractLsb' 4 4 = 0 ∧ cmd.extractLsb' 1 3 = selOfWidth f.w ∧
        cmd.extractLsb' 0 1 = dirBit f.dir) ∧ f.r = (cmd.extractLsb' 8 8).toNat ∧ f.b = (cmd.extractLsb' 16 8).toNat := by
  obtain ⟨dir, w, r, b⟩ := f
  unfold decodeFields
  split
  · next hreserved => simp only [reduceCtorEq, false_iff]; tauto
  · next hreserved =>
    obtain ⟨hhigh, hzero⟩ := not_or.1 hreserved
    rw [not_not] at hhigh hzero
    split
    · next hsel =>
      simp only [reduceCtorEq, false_iff, ← widthOfSel_eq_some_iff, hsel]
      tauto
    · next w' hsel =>
      have hw : w' = w ↔ cmd.extractLsb' 1 3 = selOfWidth w := by
        rw [← widthOfSel_eq_some_iff, hsel, Option.some_inj]
      simp only [Decoded.ok.injEq, Fields.mk.injEq, dirOfBit_eq_iff, hhigh, hzero, hw]
      tauto

theorem decodeFields_rejected_of {cmd : BitVec 32} (h : cmd.extractLsb' 24 8 ≠ 0 ∨ cmd.extractLsb' 4 4 ≠ 0 ∨
    5 ≤ (cmd.extractLsb' 1 3).toNat) : decodeFields cmd = .rejected .illegalCommand := by
  unfold decodeFields
  split
  · rfl
  · next hreserved =>
    have hsel : 5 ≤ (cmd.extractLsb' 1 3).toNat := by tauto
    rw [widthOfSel_eq_none hsel]

theorem command_inj {dir dir' : Dir} {w w' : Width} {r r' klen klen' len len' : Nat} :
    Instr.command dir w r klen len = Instr.command dir' w' r' klen' len' ↔
      dir = dir' ∧ w = w' ∧ r = r' ∧ klen = klen' ∧ len = len' := by
  cases dir <;> cases w <;> cases dir' <;> cases w' <;> simp [Instr.command]

theorem decodeCommand_eq_ok_iff {cmd : BitVec 32} {len : Nat} {i : Instr} :
    decodeCommand cmd len = .ok i ↔ ∃ f, decodeFields cmd = .ok f ∧ i = Instr.command f.dir f.w f.r f.b len := by
  unfold decodeCommand
  cases decodeFields cmd <;> simp [eq_comm]

theorem decodeCommand_eq_command_iff {cmd : BitVec 32} {dir : Dir} {w : Width} {r klen len : Nat} :
    decodeCommand cmd len = .ok (Instr.command dir w r klen len) ↔
      decodeFields cmd = .ok { dir := dir, w := w, r := r, b := klen } := by
  rw [decodeCommand_eq_ok_iff]
  constructor
  · rintro ⟨f, hf, heq⟩
    obtain ⟨rfl, rfl, rfl, rfl, -⟩ := command_inj.1 heq
    exact hf
  · exact fun h => ⟨_, h, rfl⟩

/-- The encoder's word of a command decodes to that command when the fields hold r and the key length. -/
theorem decodeCommand_commandWord {dir : Dir} {w : Width} {r klen : Nat} (hr : r ≤ 255) (hklen : klen ≤ 255) (len : Nat) :
    decodeCommand (commandWord dir w r klen) len = .ok (Instr.command dir w r klen len) := by
  rw [decodeCommand_eq_command_iff, decodeFields_commandWord, Nat.mod_eq_of_lt (by omega), Nat.mod_eq_of_lt (by omega)]

/-- A word that is taken apart is the encoder's word of its fields. -/
theorem eq_commandWord_of_decodeFields {cmd : BitVec 32} {f : Fields} (h : decodeFields cmd = .ok f) :
    cmd = commandWord f.dir f.w f.r f.b := by
  obtain ⟨⟨hhigh, hzero, hsel, hdir⟩, hr, hb⟩ := decodeFields_eq_ok_iff.1 h
  rw [commandWord, hr, hb, BitVec.ofNat_toNat, BitVec.ofNat_toNat, BitVec.setWidth_eq, BitVec.setWidth_eq, ← hsel, ← hdir]
  conv_lhs => rw [← append_wordFields cmd, hhigh, hzero]
  rfl

/-- What a legal word decodes to (`30_encoding.md` R88, R97). -/
theorem decodeCommand_of_legal {cmd : BitVec 32} {w : Width} (hhigh : cmd.extractLsb' 24 8 = 0)
    (hzero : cmd.extractLsb' 4 4 = 0) (hsel : cmd.extractLsb' 1 3 = selOfWidth w) (len : Nat) :
    decodeCommand cmd len = .ok (Instr.command (if cmd.extractLsb' 0 1 = 0 then .enc else .dec) w
      (cmd.extractLsb' 8 8).toNat (cmd.extractLsb' 16 8).toNat len) :=
  decodeCommand_eq_command_iff.2
    (decodeFields_eq_ok_iff.2 ⟨⟨hhigh, hzero, hsel, dirOfBit_eq_iff.1 rfl⟩, rfl, rfl⟩)

/-- A word decodes exactly when its reserved fields are 0 and WSEL is at most 4 (`30_encoding.md` R88). -/
theorem decodeCommand_isOk_iff {cmd : BitVec 32} {len : Nat} :
    (∃ i, decodeCommand cmd len = .ok i) ↔
      cmd.extractLsb' 24 8 = 0 ∧ cmd.extractLsb' 4 4 = 0 ∧ (cmd.extractLsb' 1 3).toNat < 5 := by
  constructor
  · rintro ⟨i, h⟩
    obtain ⟨f, hf, -⟩ := decodeCommand_eq_ok_iff.1 h
    obtain ⟨⟨hhigh, hzero, hsel, -⟩, -, -⟩ := decodeFields_eq_ok_iff.1 hf
    exact ⟨hhigh, hzero, hsel ▸ selOfWidth_lt f.w⟩
  · rintro ⟨hhigh, hzero, hsel⟩
    obtain ⟨w, hw⟩ := exists_width_of_sel hsel
    exact ⟨_, decodeCommand_of_legal hhigh hzero hw len⟩

/-! ### The decoder on unit codes -/

/-- Every unit operation has a code (`30_encoding.md` R90). -/
theorem encode_unit {i : Instr} (hunit : isCommand i = false) : ∃ uop, encode i = .unit uop := by
  cases i
  case enc8 | dec8 | enc16 | dec16 | enc32 | dec32 | enc64 | dec64 | enc128 | dec128 => cases hunit
  all_goals exact ⟨_, rfl⟩

/-- No command has a unit code. -/
theorem isCommand_of_encode {i : Instr} {uop : BitVec 5} (hcode : encode i = .unit uop) : isCommand i = false := by
  cases hcmd : isCommand i with
  | false => rfl
  | true =>
    obtain ⟨dir, w, r, klen, len, rfl⟩ := eq_command_of_isCommand hcmd
    rw [encode_command] at hcode
    cases hcode

/-- Unit operations have no operands to check. -/
theorem wf_of_unit {i : Instr} (hunit : isCommand i = false) : i.WellFormed := by
  cases i
  case enc8 | dec8 | enc16 | dec16 | enc32 | dec32 | enc64 | dec64 | enc128 | dec128 => cases hunit
  all_goals rfl

/-- A unit operation and its code spell each other (`30_encoding.md` R90). -/
theorem decodeUnit_eq_ok_iff {uop : BitVec 5} {i : Instr} : decodeUnit uop = .ok i ↔ encode i = .unit uop := by
  constructor
  · intro h
    unfold decodeUnit at h
    split at h <;> cases h <;> exact congrArg Code.unit (BitVec.eq_of_toNat_eq (Eq.symm ‹_›))
  · intro h
    cases i <;> cases h <;> rfl

/-- The codes 0x16 to 0x1F are rejected by name, and no others (`30_encoding.md` R91). -/
theorem decodeUnit_eq_rejected_iff {uop : BitVec 5} {e : Reject} :
    decodeUnit uop = .rejected e ↔ e = .reservedUnitCode ∧ 0x16 ≤ uop.toNat := by
  revert uop
  cases e <;> decide

/-! ### The statements about codes -/

/-- Settles O1: the word of a command is taken apart into its fields, and a unit operation and its code spell each
other. -/
theorem decodeEncodeRoundTrip : Obligations.DecodeEncodeRoundTrip := by
  intro i hwf
  cases hcmd : isCommand i with
  | true =>
    obtain ⟨dir, w, r, klen, len, rfl⟩ := eq_command_of_isCommand hcmd
    obtain ⟨hr, hklen⟩ := (wf_command dir w r klen len).1 hwf
    rw [encode_command, decode, decodeCommand_commandWord hr hklen]
  | false =>
    obtain ⟨uop, hcode⟩ := encode_unit hcmd
    rw [hcode, decode, decodeUnit_eq_ok_iff, hcode]

/-- Settles O2: a word that is taken apart is the encoder's word of its fields, which have 8 bits; a unit operation and
its code spell each other. -/
theorem encodeDecodeRoundTrip : Obligations.EncodeDecodeRoundTrip := by
  intro c i h
  cases c with
  | command cmd len =>
    obtain ⟨f, hf, rfl⟩ := decodeCommand_eq_ok_iff.1 h
    obtain ⟨hr, hb⟩ := decodeFields_lt hf
    exact ⟨(wf_command _ _ _ _ _).2 ⟨by omega, by omega⟩,
      by rw [encode_command, ← eq_commandWord_of_decodeFields hf]⟩
  | unit uop =>
    have hcode : encode i = .unit uop := decodeUnit_eq_ok_iff.1 h
    exact ⟨wf_of_unit (isCommand_of_encode hcode), hcode⟩

/-- Settles O3, each characterisation of the legal words from what `decodeFields` tests. -/
theorem legalCommandWords : Obligations.LegalCommandWords := by
  intro cmd len
  refine ⟨fun h => ?_, fun hhigh hzero hsel => ?_, ?_, ?_⟩
  · rw [decodeCommand, decodeFields_rejected_of h]
  · obtain ⟨w, hw⟩ := exists_width_of_sel hsel
    exact ⟨w, by rw [hw, bits_eq_pow_sel], decodeCommand_of_legal hhigh hzero hw len⟩
  · rw [decodeCommand_isOk_iff, and_reservedMask_eq_zero_iff, and_assoc, Nat.lt_succ_iff]
  · rw [decodeCommand_isOk_iff, opcodeByte_le_iff, and_comm]

/-- A word decodes to the command of a row exactly when the mask leaves of it the row's command word with r and the key
length 0 (`30_encoding.md` R89). -/
theorem decodeCommand_eq_row_iff (cmd : BitVec 32) (len : Nat) (dir : Dir) (w : Width) :
    decodeCommand cmd len =
        .ok (Instr.command dir w (cmd.toNat / 2 ^ 8 % 2 ^ 8) (cmd.toNat / 2 ^ 16 % 2 ^ 8) len) ↔
      cmd &&& 0xFF0000FF#32 = commandWord dir w 0 0 := by
  rw [decodeCommand_eq_command_iff, decodeFields_eq_ok_iff, and_rowMask_eq_iff]
  simp [BitVec.extractLsb'_toNat, Nat.shiftRight_eq_div_pow]

/-- Settles O4: a row's match value is its command word with r and the key length 0. -/
theorem commandRowsByMask : Obligations.CommandRowsByMask := by
  intro cmd len row hrow
  have hmatch : row.2.2 = commandWord row.1 row.2.1 0 0 := by
    revert row
    decide
  rw [hmatch]
  exact decodeCommand_eq_row_iff cmd len row.1 row.2.1

/-- Settles O6: a code decodes to the operation it spells, unless it is reserved. -/
theorem unitCodesAndReservedCodes : Obligations.UnitCodesAndReservedCodes := by
  refine fun uop => ⟨fun h => ?_, fun h s husel => ?_⟩
  · cases hdec : decodeUnit uop with
    | ok i =>
      have hcode := decodeUnit_eq_ok_iff.1 hdec
      exact ⟨i, rfl, isCommand_of_encode hcode, hcode⟩
    | rejected e =>
      obtain ⟨-, hreserved⟩ := decodeUnit_eq_rejected_iff.1 hdec
      omega
  · exact step_eq_refused_of_usel husel (decodeUnit_eq_rejected_iff.2 ⟨rfl, h⟩)

/-! ### The assembler -/

theorem okFields_iff {r klen : Nat} : okFields r klen = true ↔ r ≤ 255 ∧ klen ≤ 255 := by simp [okFields]

/-- The assembler on a command that a command word can carry (`30_encoding.md` R93). -/
theorem assembleCommand_of_le {r : Nat} {key : List Byte} (hr : r ≤ 255) (hkey : key.length ≤ 255) (dir : Dir) (w : Width)
    (data : List Byte) :
    assembleCommand dir w r key data =
      some { req := { cmd := commandWord dir w r key.length, len := data.length }, key := key, data := data } :=
  if_pos (okFields_iff.2 ⟨hr, hkey⟩)

/-- The assembler rejects what no command word can carry (`30_encoding.md` R93). -/
theorem assembleCommand_of_lt {r : Nat} {key : List Byte} (h : 255 < r ∨ 255 < key.length) (dir : Dir) (w : Width)
    (data : List Byte) : assembleCommand dir w r key data = none := by
  refine if_neg fun hok => ?_
  obtain ⟨hr, hkey⟩ := okFields_iff.1 hok
  omega

/-- The word of a pseudo-command (`30_encoding.md` R94, the table). -/
theorem commandWord_default (dir : Dir) {klen : Nat} (hklen : klen ≤ 255) :
    commandWord dir Config.defaultWidth Config.defaultRounds klen =
      BitVec.ofNat 32 ((if dir = .enc then 0x00000C04 else 0x00000C05) + klen * 0x10000) := by
  apply BitVec.eq_of_toNat_eq
  rw [commandWord_toNat, BitVec.toNat_ofNat]
  cases dir <;> simp [selOfWidth, dirBit, Config.defaultWidth, Config.defaultRounds] <;> omega

/-- Settles O9: the fields of the command word hold an r and a key length of at most 255. -/
theorem assemblerMakesLegalWords : Obligations.AssemblerMakesLegalWords := fun dir w _ _ data =>
  ⟨fun h => assembleCommand_of_lt h dir w data,
    fun hr hkey => ⟨_, assembleCommand_of_le hr hkey dir w data, rfl, rfl, decodeCommand_commandWord hr hkey _⟩⟩

/-- Settles O8: both sides are the assembler on the defaults, whose command word is a number of the table. -/
theorem pseudoCommandsExpand : Obligations.PseudoCommandsExpand := by
  refine fun dir key data => ⟨rfl, fun h => assembleCommand_of_lt (.inr h) _ _ _, fun hkey => ?_⟩
  rw [assemble, assembleCommand_of_le (by decide) hkey, commandWord_default dir hkey]

/-- Settles O5, by evaluating the decoder on each code. -/
theorem sampleWordsDecode : Obligations.SampleWordsDecode := by
  unfold Obligations.SampleWordsDecode
  decide

end Sys2Proof
end

section
/-! What unit operations and steps keep: the parameters and the entries of the tables beyond t and c under unit operations
(`30_encoding.md` R97; `10_state.md` R22, R23), and the invariant of a state under every step (`30_encoding.md` R92). -/

namespace Sys2Proof.Machine

/-! ### Parameters and bounds -/

/-- The parameters stay, S stays from t on and L stays from c on (`30_encoding.md` R97; `10_state.md` R22, R23). -/
structure Working.WithinBounds (wk wk' : Working) : Prop where
  par : wk'.par = wk.par
  S : ∀ k, wk.par.t ≤ k → wk'.S.toList[k]? = wk.S.toList[k]?
  L : ∀ k, wk.par.c ≤ k → wk'.L.toList[k]? = wk.L.toList[k]?

theorem Working.WithinBounds.of_kept {wk wk' : Working} (hpar : wk'.par = wk.par) (hS : wk'.S = wk.S)
    (hL : wk'.L = wk.L) : wk.WithinBounds wk' :=
  ⟨hpar, fun _ _ => by rw [hS], fun _ _ => by rw [hL]⟩

theorem Working.WithinBounds.trans {a b c : Working} (h₁ : a.WithinBounds b) (h₂ : b.WithinBounds c) :
    a.WithinBounds c :=
  ⟨h₂.par.trans h₁.par, fun k hk => (h₂.S k (by rw [h₁.par]; exact hk)).trans (h₁.S k hk),
    fun k hk => (h₂.L k (by rw [h₁.par]; exact hk)).trans (h₁.L k hk)⟩

/-- A block in the registers beside a word list in the port writes no table. -/
theorem Working.SameButBlock.withinBounds {wk wk' : Working} {ws : List Reg}
    (h : (wk.setWords ws).SameButBlock wk') : wk.WithinBounds wk' := by
  rw [h.eq]
  exact .of_kept rfl rfl rfl

theorem Working.mix_withinBounds (wk : Working) : wk.WithinBounds wk.mix := by
  obtain ⟨-, -, hS, hL⟩ := wk.mix_tables
  exact ⟨rfl, hS, hL⟩

theorem Working.expand_withinBounds (wk : Working) {key : List Byte} (hb : key.length = wk.par.b.toNat) :
    wk.WithinBounds (wk.expand key) :=
  ⟨rfl, fun _ _ => rfl, (wk.expand_table hb).2⟩

/-- CDC.JOIN writes a run of bytes to DOUT from address 0 on and nothing else (`44_block_codec.md` R192). -/
theorem execCdcJoin_next {s t : State} (h : execCdcJoin s = .next t) : ∃ bs, t = s.wrote s.work 0 bs := by
  by_cases hroom : s.work.ports.words.length * s.work.par.u ≤ s.work.par.N
  · rw [execCdcJoin_room rfl hroom] at h
    cases h
    exact ⟨_, rfl⟩
  · rw [execCdcJoin_beyond (Nat.not_le.1 hroom)] at h
    cases h

/-- A unit operation other than SEQ.TAKE stays within the bounds of the tables, and draws a free value only if it is
CDC.SPLIT or CDC.APPLY (notes/assumptions/22.md, 23.md). -/
theorem exec_unit_withinBounds {i : Instr} {s t : State} (hunit : isCommand i = false) (hi : i ≠ .seqTake)
    (h : exec i s = .next t) :
    s.work.WithinBounds t.work ∧ (i ≠ .cdcSplit → i ≠ .cdcApply → t.draws = s.draws) := by
  cases i
  case enc8 | dec8 | enc16 | dec16 | enc32 | dec32 | enc64 | dec64 | enc128 | dec128 => cases hunit
  case wAdd | wSub | wXor | wRotl | wRotr | wFromByte | wToLe | wFromLe | wConstP | wConstQ | seqRestart | seqNext |
      blkEnc | blkDec =>
    cases h
    exact ⟨.of_kept rfl rfl rfl, fun _ _ => rfl⟩
  case seqTake => exact absurd rfl hi
  case ksExpand =>
    obtain ⟨key, hkey, rfl⟩ := execKsExpand_next h
    exact ⟨s.work.expand_withinBounds (Memory.readN_length hkey), fun _ _ => rfl⟩
  case ksMix =>
    cases h
    exact ⟨s.work.mix_withinBounds, fun _ _ => rfl⟩
  case ksSchedule =>
    obtain ⟨s', hexpand, hmix⟩ := andThen_eq_next.1 h
    obtain ⟨key, hkey, rfl⟩ := execKsExpand_next hexpand
    cases hmix
    exact ⟨(s.work.expand_withinBounds (Memory.readN_length hkey)).trans (Working.mix_withinBounds _), fun _ _ => rfl⟩
  case cdcValidate =>
    dsimp only [exec, execCdcValidate] at h
    split at h <;> cases h <;> exact ⟨.of_kept rfl rfl rfl, fun _ _ => rfl⟩
  case cdcSplit =>
    obtain ⟨ws, n, rfl⟩ := execCdcSplit_next h
    exact ⟨.of_kept rfl rfl rfl, fun hsplit => absurd rfl hsplit⟩
  case cdcJoin =>
    obtain ⟨bs, rfl⟩ := execCdcJoin_next h
    exact ⟨.of_kept rfl rfl rfl, fun _ _ => rfl⟩
  case cdcApply =>
    obtain ⟨ws, wk, n, hsame, rfl⟩ := execCdcApply_next h
    exact ⟨hsame.withinBounds, fun _ happly => absurd rfl happly⟩

/-- Settles O55: SEQ.TAKE by its own equation, the others by their bounds. -/
theorem unitOperationsKeepParametersAndBounds : Obligations.UnitOperationsKeepParametersAndBounds := by
  intro i s t hunit h
  have hframe : t.resp = s.resp ∧ t.usel = s.usel := by
    obtain ⟨-, rfl | rfl⟩ | ⟨-, m, rfl⟩ | ⟨wk, n, rfl, -⟩ := exec_unit_next hunit h <;> exact ⟨rfl, rfl⟩
  obtain ⟨hresp, husel⟩ := hframe
  by_cases hi : i = .seqTake
  · subst hi
    dsimp only [exec, execSeqTake] at h
    split at h <;> cases h
    exact ⟨rfl, rfl, rfl, fun _ _ => rfl, fun htake => absurd rfl htake, fun _ _ => rfl⟩
  · obtain ⟨⟨hpar, hS, hL⟩, hdraws⟩ := exec_unit_withinBounds hunit hi h
    exact ⟨hpar, hresp, husel, hdraws, fun _ => hS, hL⟩

/-! ### The invariant -/

/-- The state after RESPOND has the invariant if a failure is answered with no bytes (`30_encoding.md` R92). -/
theorem State.Inv.answered {s : State} (hs : s.Inv) {p : Response} {m : Memory} (hm : m.wf)
    (hp : p.status ≠ .ok → p.out = []) : (s.answered p m).Inv :=
  ⟨hs.keyWf, hs.dinWf, hm, fun _ hresp => by cases hresp; exact hp⟩

/-- Bytes written to DOUT leave it in canonical form (`20_memory.md` R57). -/
theorem State.Inv.wrote {s : State} (hs : s.Inv) (wk : Working) (a : Nat) (bs : List Byte) : (s.wrote wk a bs).Inv :=
  ⟨hs.keyWf, hs.dinWf, Memory.writeN_wf hs.doutWf a bs, hs.noBytesOnFailure⟩

/-- A change of anything but the buffers and the response keeps the invariant. -/
theorem State.Inv.of_same {s t : State} (hs : s.Inv) (hkey : t.key = s.key) (hdin : t.din = s.din)
    (hdout : t.dout = s.dout) (hresp : t.resp = s.resp) : t.Inv := by
  obtain ⟨hkeyWf, hdinWf, hdoutWf, hbytes⟩ := hs
  exact ⟨hkey ▸ hkeyWf, hdin ▸ hdinWf, hdout ▸ hdoutWf, hresp ▸ hbytes⟩

/-- The parameters of a command are fixed with no earlier response left (`10_state.md` R30). -/
theorem State.Inv.start {s : State} (hs : s.Inv) (p : Params) : (start p s).Inv :=
  ⟨hs.keyWf, hs.dinWf, hs.doutWf, fun _ hresp => by cases hresp⟩

/-- An instruction, command or unit operation, keeps the invariant. -/
theorem exec_keeps_inv {i : Instr} {s t : State} (hs : s.Inv) (h : exec i s = .next t) : t.Inv := by
  cases hcmd : isCommand i with
  | true =>
    obtain ⟨dir, w, r, klen, len, rfl⟩ := eq_command_of_isCommand hcmd
    rw [exec_command] at h
    obtain rfl | ⟨bs, -, rfl⟩ := runCommand_next h
    · exact hs.answered hs.doutWf fun _ => rfl
    · exact hs.answered (Memory.writeN_wf hs.doutWf 0 bs) fun hfail => absurd rfl hfail
  | false =>
    obtain ⟨-, rfl | rfl⟩ | ⟨rfl, -⟩ | ⟨wk, n, rfl, -⟩ := exec_unit_next hcmd h
    · exact hs
    · exact hs.of_same rfl rfl rfl rfl
    · obtain ⟨bs, rfl⟩ := execCdcJoin_next h
      exact hs.wrote s.work 0 bs
    · exact hs.of_same rfl rfl rfl rfl

/-- A phase keeps the invariant: BLOCKS writes DOUT, DECODE and RESPOND write the response, and no other phase writes
either. -/
theorem phaseStep_keeps_inv {s t : State} (hs : s.Inv) (h : phaseStep s = .next t) : t.Inv := by
  cases hphase : s.phase
  case idle =>
    cases hreq : s.req with
    | none => simp only [phaseStep, hphase, hreq] at h; cases h; exact hs
    | some q => rw [phaseStep_request hphase hreq] at h; cases h; exact hs.of_same rfl rfl rfl rfl
  case decode =>
    cases hreq : s.req with
    | none => simp only [phaseStep, hphase, hreq] at h; cases h
    | some q =>
      have htaken : s.takeRequest.Inv := hs.of_same rfl rfl rfl rfl
      cases hdec : decodeFields q.cmd with
      | ok f => rw [phaseStep_decode_ok hphase hreq hdec] at h; cases h; exact htaken.start _
      | rejected e =>
        rw [phaseStep_decode_rejected hphase hreq hdec] at h
        cases h
        exact htaken.of_same rfl rfl rfl rfl
  case validate =>
    rw [phaseStep_validate hphase rfl] at h
    split at h <;> cases h <;> exact hs.of_same rfl rfl rfl rfl
  case expand =>
    rw [phaseStep_expand hphase] at h
    obtain ⟨s', hexpand, hgoto⟩ := andThen_eq_next.1 h
    obtain ⟨key, -, rfl⟩ := execKsExpand_next hexpand
    cases hgoto
    exact hs.of_same rfl rfl rfl rfl
  case mix =>
    rw [phaseStep_mix hphase] at h
    cases h
    exact hs.of_same rfl rfl rfl rfl
  case blocks =>
    rw [phaseStep_blocks hphase rfl] at h
    obtain ⟨s', hblocks, hgoto⟩ := andThen_eq_next.1 h
    obtain ⟨wk, a, bs, rfl⟩ := blocksLoop_next hblocks
    cases hgoto
    exact (hs.wrote wk a bs).of_same rfl rfl rfl rfl
  case respond =>
    rw [phaseStep_respond hphase] at h
    obtain ⟨bs, rfl, -, hbytes⟩ := respond_next h
    exact hs.answered hs.doutWf hbytes

/-- What every phase keeps holds after any number of them. -/
theorem runPhases_keeps {P : State → Prop} (hP : ∀ {s t}, P s → phaseStep s = .next t → P t) {n : Nat} {s t : State}
    (hs : P s) (h : runPhases n s = .next t) : P t := by
  induction n generalizing s with
  | zero => cases h; exact hs
  | succ n ih =>
    by_cases hidle : s.phase = .idle
    · rw [runPhases_of_idle hidle] at h
      cases h
      exact hs
    · rw [runPhases_succ rfl hidle] at h
      obtain ⟨s', hphase, hrest⟩ := andThen_eq_next.1 h
      exact ih (hP hs hphase) hrest

/-- Settles O57: a step is a run of phases, or a unit operation with its code taken. -/
theorem stepKeepsTheInvariant : Obligations.StepKeepsTheInvariant := by
  intro s t hs h
  cases husel : s.usel with
  | none =>
    obtain ⟨ph, hphases⟩ := step_eq_runPhases husel
    have hin : (s.inPhase ph).Inv := hs.of_same rfl rfl rfl rfl
    exact runPhases_keeps phaseStep_keeps_inv hin (hphases ▸ h)
  | some uop =>
    cases hdec : decode (.unit uop) with
    | ok i =>
      rw [step_eq_exec_of_usel husel hdec] at h
      have htaken : { s with usel := none }.Inv := hs.of_same rfl rfl rfl rfl
      exact exec_keeps_inv htaken h
    | rejected e => rw [step_eq_refused_of_usel husel hdec] at h; cases h

end Sys2Proof.Machine
end

section
/-! The word-arithmetic unit on words: addition, subtraction, exclusive or and the rotations, in arithmetic and bit by
bit, and the statements about them (`40_word_arithmetic.md` R112 to R117). -/

namespace Sys2Proof.Machine

/-! ### Addition, subtraction, exclusive or -/

@[simp] theorem addW_toNat {w : Nat} (a b : BitVec w) : (addW a b).toNat = (a.toNat + b.toNat) % 2 ^ w :=
  BitVec.toNat_add a b

/-- The two cases of R113: with and without a borrow. -/
theorem subW_toNat {w : Nat} (a b : BitVec w) :
    (subW a b).toNat = if b.toNat ≤ a.toNat then a.toNat - b.toNat else a.toNat + 2 ^ w - b.toNat := by
  have ha := a.isLt
  have hb := b.isLt
  rw [subW, BitVec.toNat_sub]
  split
  · next hle =>
    rw [show 2 ^ w - b.toNat + a.toNat = 2 ^ w + (a.toNat - b.toNat) by omega, Nat.add_mod_left,
      Nat.mod_eq_of_lt (by omega)]
  · next hlt => rw [Nat.mod_eq_of_lt (by omega)]; omega

@[simp] theorem xorW_getLsbD {w : Nat} (a b : BitVec w) (k : Nat) :
    (xorW a b).getLsbD k = (a.getLsbD k != b.getLsbD k) := BitVec.getLsbD_xor

/-- Exclusive or with the same word twice is no change. -/
theorem xorW_xorW {w : Nat} (a b : BitVec w) : xorW (xorW a b) b = a := by
  rw [xorW, xorW, BitVec.xor_assoc, BitVec.xor_self, BitVec.xor_zero]

/-- Settles O10: each operation's result is its function of the operands. -/
theorem addSubXorResults : Obligations.AddSubXorResults :=
  ⟨rfl, rfl, rfl, fun s =>
    ⟨addW s.work.opA s.work.opB, subW s.work.opA s.work.opB, xorW s.work.opA s.work.opB,
      rfl, addW_toNat _ _, rfl, subW_toNat _ _, rfl, fun k _ => xorW_getLsbD _ _ k⟩⟩

/-! ### Rotations -/

/-- The low m bits moved up by k and the high k bits moved down by m do not overlap: their union is their sum. -/
theorem shiftLeft_or_shiftRight_eq_add {w m k x : Nat} (hw : m + k = w) (hx : x < 2 ^ w) :
    x <<< k % 2 ^ w ||| x >>> m = x * 2 ^ k % 2 ^ w + x / 2 ^ m := by
  subst hw
  rw [pow_add] at hx ⊢
  have hhigh : x / 2 ^ m < 2 ^ k := Nat.div_lt_of_lt_mul hx
  rw [Nat.shiftLeft_eq, Nat.shiftRight_eq_div_pow, Nat.mul_mod_mul_right, mul_comm (x % 2 ^ m),
    Nat.two_pow_add_eq_or_of_lt hhigh]

theorem rotl_toNat {w : Nat} (hw : 0 < w) (x : BitVec w) (n : Nat) :
    (rotl x n).toNat = rotlNat w x.toNat n := by
  have hk : n % w < w := Nat.mod_lt n hw
  have hx := x.isLt
  rw [rotl, rotlNat, BitVec.toNat_rotateLeft]
  split
  · next hzero =>
    rw [hzero, Nat.shiftLeft_zero, Nat.mod_eq_of_lt hx, Nat.sub_zero, Nat.shiftRight_eq_div_pow,
      Nat.div_eq_of_lt hx, Nat.or_zero]
  · exact shiftLeft_or_shiftRight_eq_add (Nat.sub_add_cancel hk.le) hx

theorem rotr_toNat {w : Nat} (hw : 0 < w) (x : BitVec w) (n : Nat) :
    (rotr x n).toNat = rotrNat w x.toNat n := by
  have hk : n % w < w := Nat.mod_lt n hw
  have hx := x.isLt
  rw [rotr, rotrNat, BitVec.toNat_rotateRight]
  split
  · next hzero =>
    rw [hzero, Nat.shiftRight_zero, Nat.sub_zero, Nat.shiftLeft_eq, Nat.mul_mod_left, Nat.or_zero]
  · have hpow : 2 ^ w = 2 ^ (n % w) * 2 ^ (w - n % w) := by rw [← pow_add, Nat.add_sub_cancel' hk.le]
    rw [Nat.or_comm, shiftLeft_or_shiftRight_eq_add (Nat.add_sub_cancel' hk.le) hx, hpow, Nat.mul_mod_mul_right,
      Nat.add_comm]

/-- Bit j goes to bit j + n, around the end. -/
theorem rotl_getLsbD {w j : Nat} (hj : j < w) (x : BitVec w) (n : Nat) :
    (rotl x n).getLsbD ((j + n % w) % w) = x.getLsbD j := by
  have hk : n % w < w := Nat.mod_lt n (by omega)
  rw [rotl, BitVec.getLsbD_rotateLeft]
  by_cases hwrap : j + n % w < w
  · rw [Nat.mod_eq_of_lt hwrap]
    simp [hwrap]
  · rw [Nat.mod_eq_sub_mod (by omega), Nat.mod_eq_of_lt (by omega), decide_eq_true (by omega), cond_true]
    congr 1; omega

/-- Bit j goes to bit j - n, around the end. -/
theorem rotr_getLsbD {w j : Nat} (hj : j < w) (x : BitVec w) (n : Nat) :
    (rotr x n).getLsbD ((j + w - n % w) % w) = x.getLsbD j := by
  have hk : n % w < w := Nat.mod_lt n (by omega)
  rw [rotr, BitVec.getLsbD_rotateRight]
  by_cases hwrap : j < n % w
  · rw [Nat.mod_eq_of_lt (by omega), decide_eq_false (by omega), decide_eq_true (by omega), cond_false, Bool.true_and]
    congr 1; omega
  · rw [Nat.mod_eq_sub_mod (by omega), Nat.mod_eq_of_lt (by omega), decide_eq_true (by omega), cond_true]
    congr 1; omega

/-- Up by k and down by k, around the end, is no move. -/
theorem add_mod_add_sub_mod {w j k : Nat} (hj : j < w) (hk : k < w) : ((j + k) % w + w - k) % w = j := by
  by_cases hwrap : j + k < w
  · rw [Nat.mod_eq_of_lt hwrap, show j + k + w - k = j + w by omega, Nat.add_mod_right, Nat.mod_eq_of_lt hj]
  · rw [Nat.mod_eq_sub_mod (by omega : w ≤ j + k), Nat.mod_eq_of_lt (by omega : j + k - w < w),
      show j + k - w + w - k = j by omega, Nat.mod_eq_of_lt hj]

/-- Down by k and up by k, around the end, is no move. -/
theorem add_sub_mod_add_mod {w j k : Nat} (hj : j < w) (hk : k < w) : ((j + w - k) % w + k) % w = j := by
  rw [Nat.mod_add_mod, Nat.sub_add_cancel (by omega), Nat.add_mod_right, Nat.mod_eq_of_lt hj]

/-- Each bit goes up and comes back down. -/
theorem rotr_rotl {w : Nat} (x : BitVec w) (n : Nat) : rotr (rotl x n) n = x := by
  refine BitVec.eq_of_getLsbD_eq fun j hj => ?_
  have hw : 0 < w := by omega
  have hback := rotr_getLsbD (Nat.mod_lt (j + n % w) hw) (rotl x n) n
  rwa [add_mod_add_sub_mod hj (Nat.mod_lt n hw), rotl_getLsbD hj] at hback

/-- Each bit goes down and comes back up. -/
theorem rotl_rotr {w : Nat} (x : BitVec w) (n : Nat) : rotl (rotr x n) n = x := by
  refine BitVec.eq_of_getLsbD_eq fun j hj => ?_
  have hw : 0 < w := by omega
  have hback := rotl_getLsbD (Nat.mod_lt (j + w - n % w) hw) (rotr x n) n
  rwa [add_sub_mod_add_mod hj (Nat.mod_lt n hw), rotr_getLsbD hj] at hback

theorem Width.bits_pos (w : Width) : 0 < w.bits := by cases w <;> decide

/-- Settles O11, from the rotation's value and its bits. -/
theorem rotateLeftResult : Obligations.RotateLeftResult :=
  ⟨rfl, fun s => ⟨rotl s.work.opA s.work.ports.amount, rfl, rotl_toNat (Width.bits_pos _) _ _,
    fun _ hj => rotl_getLsbD hj _ _⟩⟩

/-- Settles O12, from the rotation's value and its bits. -/
theorem rotateRightResult : Obligations.RotateRightResult :=
  ⟨rfl, fun s => ⟨rotr s.work.opA s.work.ports.amount, rfl, rotr_toNat (Width.bits_pos _) _ _,
    fun _ hj => rotr_getLsbD hj _ _⟩⟩

/-! ### Words as rotation amounts -/

/-- Rotations by amounts that agree mod w are the same. -/
theorem rotl_congr {w m n : Nat} (x : BitVec w) (h : m % w = n % w) : rotl x m = rotl x n := by
  rw [rotl, ← BitVec.rotateLeft_mod_eq_rotateLeft, h, BitVec.rotateLeft_mod_eq_rotateLeft, rotl]

theorem rotr_congr {w m n : Nat} (x : BitVec w) (h : m % w = n % w) : rotr x m = rotr x n := by
  rw [rotr, ← BitVec.rotateRight_mod_eq_rotateRight, h, BitVec.rotateRight_mod_eq_rotateRight, rotr]

/-- w divides 2^w, so reduction mod 2^w does not change a value mod w (`40_word_arithmetic.md` R117). -/
theorem Width.bits_dvd_two_pow (w : Width) : w.bits ∣ 2 ^ w.bits := by cases w <;> decide

theorem val_addW_mod {w : Width} (a b : Word w) : val (addW a b) % w.bits = (val a + val b) % w.bits := by
  rw [val, addW_toNat, Nat.mod_mod_of_dvd _ (Width.bits_dvd_two_pow w), val, val]

/-- Settles O13: rotations look only at the amount mod w. -/
theorem wordAsRotationAmount : Obligations.WordAsRotationAmount := fun _ x a b =>
  have hsum := val_addW_mod a b
  have hmod := (Nat.mod_mod (val a) _).symm
  ⟨hsum, rotl_congr x hsum, rotr_congr x hsum, rotl_congr x hmod, rotr_congr x hmod⟩

end Sys2Proof.Machine
end

section
/-! The word-arithmetic unit between bytes and words, its inverse laws and its constants, and the statements about them
(`40_word_arithmetic.md` R118 to R124). -/

namespace Sys2Proof.Machine

/-! ### Bytes and words -/

theorem fromByte_toNat (w : Width) (v : Byte) : (fromByte w.bits v).toNat = v.toNat := by
  have hbits : 8 ≤ w.bits := by cases w <;> decide
  have hle : 2 ^ 8 ≤ 2 ^ w.bits := Nat.pow_le_pow_right (by decide) hbits
  rw [fromByte, BitVec.toNat_setWidth, Nat.mod_eq_of_lt (v.isLt.trans_le hle)]

theorem toLE_getElem? {w u i : Nat} (x : BitVec w) (hi : i < u) :
    ((toLE u x)[i]?).map BitVec.toNat = some (x.toNat / 2 ^ (8 * i) % 256) := by
  simp [toLE, hi, BitVec.extractLsb'_toNat, Nat.shiftRight_eq_div_pow]

/-- The bytes are the digits in base 256, the least significant first. -/
theorem leNat_eq_ofDigits (bs : List Byte) : leNat bs = Nat.ofDigits 256 (bs.map BitVec.toNat) := by
  induction bs with
  | nil => rfl
  | cons v vs ih => rw [leNat, ih, List.map_cons, Nat.ofDigits_cons]

theorem toNat_lt_of_mem_map {bs : List Byte} : ∀ d ∈ bs.map BitVec.toNat, d < 256 :=
  List.forall_mem_map.2 fun v _ => v.isLt

theorem leNat_append (xs ys : List Byte) : leNat (xs ++ ys) = leNat xs + 256 ^ xs.length * leNat ys := by
  simp only [leNat_eq_ofDigits, List.map_append, Nat.ofDigits_append, List.length_map]

theorem leNat_lt (bs : List Byte) : leNat bs < 256 ^ bs.length := by
  rw [leNat_eq_ofDigits, ← List.length_map (as := bs) BitVec.toNat]
  exact Nat.ofDigits_lt_base_pow_length (by decide) toNat_lt_of_mem_map

/-- Lists of the same length that stand for the same number are the same. -/
theorem leNat_inj {xs ys : List Byte} (hlen : xs.length = ys.length) (h : leNat xs = leNat ys) : xs = ys := by
  rw [leNat_eq_ofDigits, leNat_eq_ofDigits] at h
  have hdigits := Nat.ofDigits_inj_of_len_eq (by decide) (by simpa using hlen) toNat_lt_of_mem_map
    toNat_lt_of_mem_map h
  exact List.map_injective_iff.2 BitVec.toNat_injective hdigits

theorem leNat_eq_sum (bs : List Byte) :
    leNat bs = ∑ i ∈ Finset.range bs.length, ((bs[i]?).getD 0).toNat * 2 ^ (8 * i) := by
  induction bs with
  | nil => rfl
  | cons v vs ih =>
    rw [leNat, ih, List.length_cons, Finset.sum_range_succ', Finset.mul_sum, Nat.add_comm]
    congr 1
    · refine Finset.sum_congr rfl fun i _ => ?_
      rw [List.getElem?_cons_succ, Nat.mul_succ, pow_add]; ring
    · simp

/-- The bytes of a word stand for its low u bytes. -/
theorem leNat_toLE {w : Nat} (u : Nat) (x : BitVec w) : leNat (toLE u x) = x.toNat % 256 ^ u := by
  induction u with
  | zero => simp [toLE, leNat, Nat.mod_one]
  | succ u ih =>
    have hsnoc : toLE (u + 1) x = toLE u x ++ [x.extractLsb' (8 * u) 8] := by simp [toLE, List.range_succ]
    have hlast : leNat [x.extractLsb' (8 * u) 8] = x.toNat / 256 ^ u % 256 := by
      simp [leNat, BitVec.extractLsb'_toNat, Nat.shiftRight_eq_div_pow, pow_mul]
    rw [hsnoc, leNat_append, ih, hlast, toLE_length, Nat.mod_pow_succ]

/-- A word has as many values as its u bytes have. -/
theorem Width.two_pow_bits (w : Width) : 2 ^ w.bits = 256 ^ w.bytes := by
  rw [Width.bits_eq, pow_mul]
  norm_num

/-- The bytes of one word fit in the word. -/
theorem fromLE_toNat {w : Width} {bs : List Byte} (hlen : bs.length = w.bytes) :
    (fromLE w.bits bs).toNat = leNat bs := by
  have hlt := leNat_lt bs
  rw [hlen, ← Width.two_pow_bits w] at hlt
  rw [fromLE, BitVec.toNat_ofNat, Nat.mod_eq_of_lt hlt]

theorem fromLE_toLE {w : Width} (x : Word w) : fromLE w.bits (toLE w.bytes x) = x := by
  refine BitVec.eq_of_toNat_eq ?_
  rw [fromLE_toNat (toLE_length _ _), leNat_toLE, ← Width.two_pow_bits w, Nat.mod_eq_of_lt x.isLt]

theorem toLE_fromLE {w : Width} {bs : List Byte} (hlen : bs.length = w.bytes) :
    toLE w.bytes (fromLE w.bits bs) = bs := by
  refine leNat_inj (by rw [toLE_length, hlen]) ?_
  rw [leNat_toLE, ← Width.two_pow_bits w, Nat.mod_eq_of_lt (BitVec.isLt _), fromLE_toNat hlen]

/-- W.FROMLE's operand: the port has a lane for every byte of a word. -/
theorem Ports.lanes_take_length (p : Ports) (w : Width) : (p.lanes.toList.take w.bytes).length = w.bytes := by
  have := Width.bytes_le w
  rw [List.length_take, Vector.length_toList]; omega

/-- The word that W.FROMLE gives, by the lanes it reads (`40_word_arithmetic.md` R120). -/
theorem fromLE_lanes_toNat (p : Ports) (w : Width) :
    (fromLE w.bits (p.lanes.toList.take w.bytes)).toNat =
      ∑ i ∈ Finset.range w.bytes, ((p.lanes.toList[i]?).getD 0).toNat * 2 ^ (8 * i) := by
  rw [fromLE_toNat (p.lanes_take_length w), leNat_eq_sum, p.lanes_take_length w]
  refine Finset.sum_congr rfl fun i hi => ?_
  rw [List.getElem?_take_of_lt (Finset.mem_range.1 hi)]

/-- Settles O14: each operation's result is its function of the operand. -/
theorem byteConversionResults : Obligations.ByteConversionResults :=
  ⟨rfl, rfl, rfl, fun s =>
    ⟨fromByte s.work.par.bits s.work.ports.byte, fromLE s.work.par.bits (s.work.ports.lanes.toList.take s.work.par.u),
      toLE s.work.par.u s.work.opA, rfl, fromByte_toNat _ _, rfl, toLE_length _ _, fun _ hi => toLE_getElem? _ hi, rfl,
      fromLE_lanes_toNat _ _⟩⟩

/-! ### The inverse laws and the constants -/

/-- Settles O16, law by law. -/
theorem unitInverses : Obligations.UnitInverses := fun _ a b n _ hlen =>
  ⟨BitVec.add_sub_cancel a b, BitVec.sub_add_cancel a b, xorW_xorW a b, rotr_rotl a n, rotl_rotr a n,
    fromLE_toLE a, toLE_fromLE hlen⟩

/-- The result port sees a word only through the register it is put in. -/
theorem Working.setOut_congr {v w : Nat} {x : BitVec v} {y : BitVec w} (wk : Working) (h : toReg x = toReg y) :
    wk.setOut x = wk.setOut y := by rw [Working.setOut, Working.setOut, h]

/-- A change of the working state is known by what it makes of the state's own. -/
theorem State.onWork_congr {s : State} {f g : Working → Working} (h : f s.work = g s.work) :
    s.onWork f = s.onWork g := by rw [State.onWork, State.onWork, h]

/-- Settles O15: at each width the constant in its register is the table's literal. -/
theorem constantResults : Obligations.ConstantResults := by
  refine ⟨rfl, rfl, fun s row hrow hw => ?_⟩
  have hconst : toReg (constP row.1) = toReg row.2.1 ∧ toReg (constQ row.1) = toReg row.2.2 := by
    clear hw
    revert row
    decide
  obtain ⟨hP, hQ⟩ := hconst
  rw [← hw] at hP hQ
  exact ⟨congrArg Host.Outcome.next (State.onWork_congr (s.work.setOut_congr hP)),
    congrArg Host.Outcome.next (State.onWork_congr (s.work.setOut_congr hQ))⟩

end Sys2Proof.Machine
end

section
/-! The key sequence generator: the terms in arithmetic, what NEXT emits and TAKE writes, and the statements about them
(`41_key_sequence.md` R140 to R144). -/

namespace Sys2Proof.Machine

/-! ### The terms -/

/-- Settles O18, by induction on the index: one more step adds one more Q_w, and reducing early is no change. -/
theorem sequenceClosedForm : Obligations.SequenceClosedForm := by
  intro w i
  induction i with
  | zero => rw [Nat.zero_mul, Nat.add_zero, Nat.mod_eq_of_lt (constP w).isLt]; rfl
  | succ i ih => rw [seqTerm, addW_toNat, ih, Nat.mod_add_mod, Nat.succ_mul, Nat.add_assoc]

/-- The words emitted from a generator that holds term k are the terms from k on. -/
theorem seqFrom_seqTerm_getElem? (w : Width) (k : Nat) {n i : Nat} (hi : i < n) :
    (seqFrom w (seqTerm w k) n)[i]? = some (seqTerm w (k + i)) := by
  induction n generalizing k i with
  | zero => omega
  | succ n ih =>
    cases i with
    | zero => rfl
    | succ i =>
      have htail : (seqFrom w (seqTerm w (k + 1)) n)[i]? = some (seqTerm w (k + 1 + i)) :=
        ih (k + 1) (Nat.lt_of_succ_lt_succ hi)
      rw [Nat.add_right_comm] at htail
      exact htail

theorem seqList_getElem? (w : Width) {t i : Nat} (hi : i < t) : (seqList w t)[i]? = some (seqTerm w i) :=
  (seqFrom_seqTerm_getElem? w 0 hi).trans (by rw [Nat.zero_add])

/-! ### RESTART and NEXT -/

theorem exec_seqRestart (s : State) : exec .seqRestart s = .next (s.onWork Working.seqRestart) := rfl

theorem exec_seqNext (s : State) : exec .seqNext s = .next (s.onWork Working.seqNext) := rfl

/-- Settles O17: the new G is `addW` of the old one and Q_w. -/
theorem restartAndNextResults : Obligations.RestartAndNextResults :=
  ⟨rfl, rfl, fun s => ⟨exec_seqRestart s,
    addW (toWord s.work.par.bits s.work.G) (constQ s.work.par.w), addW_toNat _ _, exec_seqNext s⟩⟩

/-- NEXT on a generator that holds term i emits it and leaves term i + 1. -/
theorem Working.seqNext_of_seqTerm {wk : Working} {i : Nat} (hG : wk.G = toReg (seqTerm wk.par.w i)) :
    wk.seqNext = { wk.setOut (seqTerm wk.par.w i) with G := toReg (seqTerm wk.par.w (i + 1)) } := by
  have hword : toWord wk.par.bits wk.G = seqTerm wk.par.w i := by rw [hG]; exact toWord_toReg (Width.bits_le _) _
  simp only [Working.seqNext, hword, seqTerm]

/-- From a generator that holds term i, the last of n + 1 uses of NEXT emits term i + n. -/
theorem execAll_seqNext {s : State} {w : Width} {i : Nat} (n : Nat) (hw : s.work.par.w = w)
    (hG : s.work.G = toReg (seqTerm w i)) :
    ∃ t, execAll (List.replicate (n + 1) .seqNext) s = .next t ∧
      t.work.ports.out = toReg (seqTerm w (i + n)) ∧ t.work.S = s.work.S := by
  induction n generalizing s i with
  | zero =>
    subst hw
    exact ⟨_, rfl, by rw [State.onWork_work, Working.seqNext_of_seqTerm hG]; rfl, rfl⟩
  | succ n ih =>
    subst hw
    have hG' : (s.onWork Working.seqNext).work.G = toReg (seqTerm s.work.par.w (i + 1)) := by
      rw [State.onWork_work, Working.seqNext_of_seqTerm hG]
    obtain ⟨t, hrun, hout, hS⟩ := ih (s := s.onWork Working.seqNext) rfl hG'
    refine ⟨t, ?_, ?_, hS⟩
    · rw [List.replicate_succ, execAll, exec_seqNext, andThen_next, hrun]
    · rw [hout, Nat.add_assoc, Nat.add_comm 1 n]

/-- Settles O19: a restart leaves term 0 in the generator. -/
theorem nextEmitsTheSequence : Obligations.NextEmitsTheSequence := by
  intro s n
  obtain ⟨t, hrun, hout, hS⟩ := execAll_seqNext (s := s.onWork Working.seqRestart) (i := 0) n rfl rfl
  refine ⟨t, ?_, ?_, hS⟩
  · rw [execAll, exec_seqRestart, andThen_next, hrun]
  · rw [hout, Nat.zero_add]
    exact toWord_toReg (Width.bits_le _) _

/-! ### TAKE -/

theorem exec_seqTake {s : State} (h : s.work.ports.count ≤ 512) :
    exec .seqTake s = .next (s.onWork (Working.seqTake s.work.ports.count)) := if_pos h

/-- The entries of S that TAKE writes. -/
theorem Working.seqTake_S_below (wk : Working) {t i : Nat} (ht : t ≤ 512) (hi : i < t) :
    (wk.seqTake t).S.toList[i]? = some (toReg (seqTerm wk.par.w i)) := by
  rw [Working.seqTake_S, writeWords_below _ _ (by rwa [seqList_length]) (Nat.lt_of_lt_of_le hi ht),
    seqList_getElem? _ hi, Option.map_some]

/-- The entries of S from the count on are not written by TAKE. -/
theorem Working.seqTake_S_above (wk : Working) {t i : Nat} (hi : t ≤ i) :
    (wk.seqTake t).S.toList[i]? = wk.S.toList[i]? :=
  writeWords_above _ _ (by rwa [seqList_length])

/-- Settles O20: below the count the terms, above it the old entries. -/
theorem takeFillsTheTable : Obligations.TakeFillsTheTable :=
  ⟨rfl, fun s hcount => ⟨_, exec_seqTake hcount, fun _ hi => s.work.seqTake_S_below hcount hi,
    fun _ hi => s.work.seqTake_S_above hi, rfl, rfl⟩⟩

end Sys2Proof.Machine
end

section
/-! The key expansion: the loop that goes backward through the key, and the statements about it (`42_key_schedule.md`
R150 to R153). -/

namespace Sys2Proof.Machine

/-! ### One byte into a word -/

@[simp] theorem leNat_replicate_zero (n : Nat) : leNat (List.replicate n 0#8) = 0 := by
  induction n with
  | zero => rfl
  | succ n ih => rw [List.replicate_succ, leNat, ih]; rfl

/-- Rotating left by 8 moves no bit around the end when the top byte is 0: it multiplies by 256. -/
theorem rotl_eight_toNat {w : Width} {x : Word w} (hx : 256 * x.toNat < 2 ^ w.bits) :
    (rotl x 8).toNat = 256 * x.toNat := by
  rw [rotl_toNat (Width.bits_pos w), rotlNat]
  split
  · next hzero =>
    have hw : w = .w8 := by revert hzero; cases w <;> decide
    subst hw
    have hx8 : 256 * x.toNat < 2 ^ 8 := hx
    omega
  · next hne =>
    have hlt : 8 < w.bits := by revert hne; cases w <;> decide
    have hpow : 2 ^ w.bits = 256 * 2 ^ (w.bits - 8) := by
      rw [show 256 = 2 ^ 8 from rfl, ← pow_add, Nat.add_sub_cancel' hlt.le]
    have hhigh : x.toNat / 2 ^ (w.bits - 8) = 0 := Nat.div_eq_of_lt (by omega)
    rw [Nat.mod_eq_of_lt hlt, hhigh, Nat.mod_eq_of_lt (by omega)]
    omega

/-- Rotating a word by a byte and adding one puts the byte in front of the word's bytes, while there is room for it. -/
theorem addW_rotl_fromByte {w : Width} {v : Byte} {vs : List Byte} (hlen : vs.length < w.bytes) :
    addW (rotl (fromLE w.bits vs) 8) (fromByte w.bits v) = fromLE w.bits (v :: vs) := by
  have hroom : 256 * leNat vs < 2 ^ w.bits := by
    calc 256 * leNat vs ≤ leNat (v :: vs) := Nat.le_add_left _ _
      _ < 256 ^ (vs.length + 1) := leNat_lt (v :: vs)
      _ ≤ 256 ^ w.bytes := Nat.pow_le_pow_right (by decide) hlen
      _ = 2 ^ w.bits := (Width.two_pow_bits w).symm
  have hword : (fromLE w.bits vs).toNat = leNat vs := by
    rw [fromLE, BitVec.toNat_ofNat, Nat.mod_eq_of_lt (by omega)]
  refine BitVec.eq_of_toNat_eq ?_
  rw [addW_toNat, rotl_eight_toNat (by rwa [hword]), hword, fromByte_toNat, fromLE, BitVec.toNat_ofNat, leNat,
    Nat.add_comm]

/-! ### The slots of the key words -/

/-- The bytes of word slot j that stand at index n or later: what the backward loop has put into the slot once it has
gone down to index n. -/
def slotFrom (u : Nat) (bs : List Byte) (n j : Nat) : List Byte := ((bs.drop (j * u)).take u).drop (n - j * u)

/-- The slot of byte n has it in front of the bytes after it. -/
theorem slotFrom_div {u n : Nat} {bs : List Byte} (hu : 0 < u) (hn : n < bs.length) :
    slotFrom u bs n (n / u) = bs.getD n 0 :: slotFrom u bs (n + 1) (n / u) := by
  have hle : n / u * u ≤ n := Nat.div_mul_le_self n u
  have hlt : n < n / u * u + u := Nat.lt_div_mul_add hu
  rw [slotFrom, slotFrom, List.drop_eq_getElem_cons (by rw [List.length_take, List.length_drop]; omega),
    List.getElem_take, List.getElem_drop, Nat.succ_sub hle]
  simp only [Nat.add_sub_cancel' hle, List.getD_eq_getElem bs 0 hn]

/-- Byte n belongs to no other slot. -/
theorem slotFrom_of_ne {u n j : Nat} (bs : List Byte) (hu : 0 < u) (hj : n / u ≠ j) :
    slotFrom u bs (n + 1) j = slotFrom u bs n j := by
  obtain hbelow | habove := Nat.lt_or_gt_of_ne hj
  · have hlt : n < j * u := (Nat.div_lt_iff_lt_mul hu).1 hbelow
    rw [slotFrom, slotFrom, Nat.sub_eq_zero_of_le hlt, Nat.sub_eq_zero_of_le hlt.le]
  · have hle : (j + 1) * u ≤ n := (Nat.le_div_iff_mul_le hu).1 habove
    rw [Nat.succ_mul] at hle
    rw [slotFrom, slotFrom, List.drop_eq_nil_of_le (by rw [List.length_take]; omega),
      List.drop_eq_nil_of_le (by rw [List.length_take]; omega)]

theorem slotFrom_succ_length_lt {u n : Nat} (bs : List Byte) (hu : 0 < u) :
    (slotFrom u bs (n + 1) (n / u)).length < u := by
  have hle : n / u * u ≤ n := Nat.div_mul_le_self n u
  rw [slotFrom, List.length_drop, List.length_take]
  omega

/-- Above the key a slot holds padding alone. -/
theorem leNat_slotFrom_padding (u : Nat) (key : List Byte) (k j : Nat) :
    leNat (slotFrom u (key ++ List.replicate k 0#8) key.length j) = 0 := by
  have hidx : j * u + (key.length - j * u) = key.length + (j * u - key.length) := by omega
  rw [slotFrom, List.drop_take, List.drop_drop, hidx, List.drop_length_add_append, List.drop_replicate,
    List.take_replicate, leNat_replicate_zero]

/-- The c key words once the backward loop has gone down to index n. -/
def wordsFrom (w : Width) (c : Nat) (bs : List Byte) (n : Nat) : List (Word w) :=
  (List.range c).map fun j => fromLE w.bits (slotFrom w.bytes bs n j)

/-- At the key's length the loop has put nothing in (`42_key_schedule.md` R150: L is 0 before the loop). -/
theorem wordsFrom_key_length (w : Width) (c : Nat) (key : List Byte) (k : Nat) :
    wordsFrom w c (key ++ List.replicate k 0) key.length = List.replicate c 0 := by
  simp [wordsFrom, fromLE, leNat_slotFrom_padding]

/-- At index 0 every slot is full. -/
theorem wordsFrom_zero (w : Width) (c : Nat) (bs : List Byte) : wordsFrom w c bs 0 = splitWords w c bs := by
  induction c generalizing bs with
  | zero => rfl
  | succ c ih =>
    rw [splitWords, ← ih, wordsFrom, List.range_succ_eq_map]
    simp [wordsFrom, slotFrom, Nat.succ_mul, Nat.add_comm]

/-! ### The loop -/

/-- One byte into its slot (`42_key_schedule.md` R151). -/
theorem expandStep_wordsFrom (w : Width) (c : Nat) {bs : List Byte} {n : Nat} (hn : n < bs.length) :
    expandStep w.bytes n (bs.getD n 0) (wordsFrom w c bs (n + 1)) = wordsFrom w c bs n := by
  have hu := Width.bytes_pos w
  refine List.ext_getElem (by simp [wordsFrom]) fun j _ _ => ?_
  simp only [expandStep, wordsFrom, List.getElem_modify, List.getElem_map, List.getElem_range]
  split
  · next hslot =>
    subst hslot
    rw [slotFrom_div hu hn, addW_rotl_fromByte (slotFrom_succ_length_lt bs hu)]
  · next hslot => rw [slotFrom_of_ne bs hu hslot]

/-- From index n down the loop puts in the bytes below n. -/
theorem expandLoop_wordsFrom (w : Width) (c : Nat) {bs : List Byte} {n : Nat} (hn : n ≤ bs.length) :
    expandLoop w.bytes bs n (wordsFrom w c bs n) = wordsFrom w c bs 0 := by
  induction n with
  | zero => rfl
  | succ n ih => rw [expandLoop, expandStep_wordsFrom w c hn, ih (Nat.le_of_lt hn)]

/-- The loop reads no byte at or above the index it starts from (`20_memory.md` R51). -/
theorem expandLoop_append {w : Nat} (u : Nat) {key : List Byte} (zs : List Byte) {n : Nat} (hn : n ≤ key.length)
    (L : List (BitVec w)) : expandLoop u (key ++ zs) n L = expandLoop u key n L := by
  induction n generalizing L with
  | zero => rfl
  | succ n ih => rw [expandLoop, expandLoop, List.getD_append _ _ _ _ hn, ih (Nat.le_of_lt hn)]

/-- Settles O21: the loop on the key is the loop on the padded key from the same index, where every slot is still 0. -/
theorem expansionClosedForm : Obligations.ExpansionClosedForm := by
  intro w key
  rw [expandKey, ← expandLoop_append w.bytes _ (Nat.le_refl _), ← wordsFrom_key_length, ← wordsFrom_zero]
  exact expandLoop_wordsFrom w _ (by simp)

/-! ### The zero-length key -/

theorem keyWords_zero (w : Width) : keyWords w.bytes 0 = 1 := by cases w <;> rfl

theorem keyWords_bytes (w : Width) : keyWords w.bytes w.bytes = 1 := by cases w <;> rfl

theorem expandKey_nil (w : Width) : expandKey w [] = [0] := by
  rw [expandKey, List.length_nil, keyWords_zero]
  rfl

/-- The key of u zero bytes is one word, 0. -/
theorem expandKey_replicate_zero (w : Width) : expandKey w (List.replicate w.bytes 0) = [0] := by
  rw [expansionClosedForm w, List.length_replicate, keyWords_bytes]
  simp [splitWords, fromLE]

/-- Settles O22: both keys are one zero word, and the table depends on the key through its words alone. -/
theorem zeroLengthKey : Obligations.ZeroLengthKey := by
  intro w r
  refine ⟨keyWords_zero w, expandKey_nil w, ?_⟩
  rw [subkeys, subkeys, expandKey_replicate_zero, expandKey_nil, List.length_replicate, keyWords_bytes,
    List.length_nil, keyWords_zero]

/-! ### KS.EXPAND -/

/-- Settles O23: L takes the expanded key and KIDX its last value. -/
theorem expandResult : Obligations.ExpandResult := by
  refine ⟨rfl, fun s key hkey => ?_⟩
  obtain ⟨hL, habove⟩ := s.work.expand_table (Memory.readN_length hkey)
  exact ⟨_, execKsExpand_some hkey, hL, habove, rfl⟩

end Sys2Proof.Machine
end

section
/-! The key mixing: the loop as an iterate, its indices and its count, what KS.MIX leaves in the registers and the
tables, and the statements about KS.MIX and KS.SCHEDULE (`42_key_schedule.md` R154 to R160). -/

namespace Sys2Proof.Machine

/-! ### The loop, its indices and its count -/

theorem mixLoop_eq_iterate {w : Nat} (t c n : Nat) (m : Mix w) : mixLoop t c n m = (mixStep t c)^[n] m := by
  induction n generalizing m with
  | zero => rfl
  | succ n ih => exact ih (mixStep t c m)

@[simp] theorem mixStep_I {w : Nat} (t c : Nat) (m : Mix w) : (mixStep t c m).I = (m.I + 1) % t := rfl

@[simp] theorem mixStep_J {w : Nat} (t c : Nat) (m : Mix w) : (mixStep t c m).J = (m.J + 1) % c := rfl

/-- From indices 0, n iterations leave n mod t and n mod c (`10_state.md` R25). -/
theorem mixLoop_indices {w : Nat} (t c n : Nat) {m : Mix w} (hI : m.I = 0) (hJ : m.J = 0) :
    (mixLoop t c n m).I = n % t ∧ (mixLoop t c n m).J = n % c := by
  rw [mixLoop_eq_iterate]
  induction n with
  | zero => exact ⟨hI.trans (Nat.zero_mod t).symm, hJ.trans (Nat.zero_mod c).symm⟩
  | succ n ih =>
    obtain ⟨ihI, ihJ⟩ := ih
    rw [Function.iterate_succ_apply', mixStep_I, mixStep_J, ihI, ihJ, Nat.mod_add_mod, Nat.mod_add_mod]
    exact ⟨rfl, rfl⟩

/-- r and b from 0 to 255 fit the 8-bit fields, so the bounds on the parameters hold of them. -/
theorem mixCount_bounds (w : Width) {r b : Nat} (hr : r ≤ 255) (hb : b ≤ 255) :
    6 ≤ mixCount (tableLen r) (keyWords w.bytes b) ∧ mixCount (tableLen r) (keyWords w.bytes b) ≤ 1536 := by
  have hc := (Params.ofCommand .enc w r b 0).c_le
  simp only [Params.c, Params.ofCommand, BitVec.toNat_ofNat, Nat.mod_eq_of_lt (Nat.lt_succ_of_le hb)] at hc
  rw [mixCount, tableLen]
  omega

/-- Settles O24, from the indices of the loop and the bounds of the count. -/
theorem mixIndicesAndCount : Obligations.MixIndicesAndCount := by
  intro w r b n S L hr hb
  obtain ⟨hI, hJ⟩ := mixLoop_indices (tableLen r) (keyWords w.bytes b) n
    (m := { A := 0, B := 0, I := 0, J := 0, S := S, L := L }) rfl rfl
  exact ⟨hI, hJ, mixCount_bounds w hr hb⟩

/-! ### One iteration in arithmetic -/

/-- The sum and the rotation of a mixing line: two additions, reduced once (`40_word_arithmetic.md` R112, R115). -/
theorem rotl_addW_addW_toNat {w : Width} (x y z : Word w) (n : Nat) :
    (rotl (addW (addW x y) z) n).toNat = rotlNat w.bits ((x.toNat + y.toNat + z.toNat) % 2 ^ w.bits) n := by
  rw [rotl_toNat (Width.bits_pos w), addW_toNat, addW_toNat, Nat.mod_add_mod]

/-- The A line, then the B line with the new A and the old B (`42_key_schedule.md` R156, R157). -/
theorem mixStep_arith (w : Width) (t c : Nat) (m : Mix w.bits) :
    ∃ a b : Word w,
      mixStep t c m =
        { A := a, B := b, I := (m.I + 1) % t, J := (m.J + 1) % c, S := m.S.set m.I a, L := m.L.set m.J b } ∧
      a.toNat = rotlNat w.bits (((m.S[m.I]?.getD 0).toNat + m.A.toNat + m.B.toNat) % 2 ^ w.bits) 3 ∧
      b.toNat =
        rotlNat w.bits (((m.L[m.J]?.getD 0).toNat + a.toNat + m.B.toNat) % 2 ^ w.bits) (a.toNat + m.B.toNat) := by
  refine ⟨_, _, rfl, ?_, ?_⟩
  · rw [rotl_addW_addW_toNat, List.getD_eq_getElem?_getD]
  · rw [rotl_congr _ (val_addW_mod _ _), rotl_addW_addW_toNat, List.getD_eq_getElem?_getD, val, val]

/-! ### KS.MIX -/

/-- The words that the generator emits are the terms (`41_key_sequence.md` R143). -/
theorem seqList_eq_map (w : Width) (t : Nat) : seqList w t = (List.range t).map (seqTerm w) := by
  refine List.ext_getElem? fun i => ?_
  by_cases hi : i < t
  · rw [seqList_getElem? w hi, List.getElem?_map, List.getElem?_range hi, Option.map_some]
  · rw [List.getElem?_eq_none (by simpa using hi), List.getElem?_eq_none (by simpa using hi)]

/-- What the mixing loop of KS.MIX ends with: it starts from the terms in S and the first c entries of L. -/
def Working.mixed (wk : Working) : Mix wk.par.bits :=
  mixAll wk.par.t wk.par.c (seqList wk.par.w wk.par.t) (readWords wk.par.bits wk.par.c wk.L)

theorem Working.mixed_eq_iterate (wk : Working) :
    wk.mixed = (mixStep wk.par.t wk.par.c)^[3 * max wk.par.t wk.par.c]
      { A := 0, B := 0, I := 0, J := 0
        S := (List.range wk.par.t).map (seqTerm wk.par.w)
        L := readWords wk.par.bits wk.par.c wk.L } := by
  rw [Working.mixed, mixAll, mixLoop_eq_iterate, seqList_eq_map]
  rfl

/-- After the loop the indices stand within S and L. -/
theorem Working.mixed_indices_lt (wk : Working) : wk.mixed.I < wk.par.t ∧ wk.mixed.J < wk.par.c := by
  obtain ⟨hI, hJ⟩ := mixLoop_indices wk.par.t wk.par.c (mixCount wk.par.t wk.par.c)
    (m := { A := 0, B := 0, I := 0, J := 0, S := seqList wk.par.w wk.par.t
            L := readWords wk.par.bits wk.par.c wk.L }) rfl rfl
  rw [Working.mixed, mixAll, hI, hJ]
  exact ⟨Nat.mod_lt _ (Nat.mul_pos (by decide) (Nat.succ_pos _)), Nat.mod_lt _ wk.par.c_pos⟩

/-- The loop of KS.MIX reads from S the terms that SEQ.TAKE has just put there. -/
theorem Working.mixAll_seqTake (wk : Working) :
    mixAll wk.par.t wk.par.c (readWords wk.par.bits wk.par.t (wk.seqTake wk.par.t).S)
      (readWords wk.par.bits wk.par.c wk.L) = wk.mixed := by
  rw [Working.seqTake_S, readWords_writeWords (Width.bits_le _) _ _ (seqList_length _ _) wk.par.t_le, Working.mixed]

/-- KS.MIX leaves A, B, I and J of the loop in the registers, which have room for them. -/
theorem Working.mix_registers (wk : Working) :
    toWord wk.par.bits wk.mix.A = wk.mixed.A ∧ toWord wk.par.bits wk.mix.B = wk.mixed.B ∧
      wk.mix.I.toNat = wk.mixed.I ∧ wk.mix.J.toNat = wk.mixed.J := by
  have hA : wk.mix.A = toReg wk.mixed.A := by rw [← wk.mixAll_seqTake]; rfl
  have hB : wk.mix.B = toReg wk.mixed.B := by rw [← wk.mixAll_seqTake]; rfl
  have hI : wk.mix.I = BitVec.ofNat 9 wk.mixed.I := by rw [← wk.mixAll_seqTake]; rfl
  have hJ : wk.mix.J = BitVec.ofNat 8 wk.mixed.J := by rw [← wk.mixAll_seqTake]; rfl
  obtain ⟨hIlt, hJlt⟩ := wk.mixed_indices_lt
  have ht := wk.par.t_le
  have hc := wk.par.c_le
  refine ⟨?_, ?_, ?_, ?_⟩
  · rw [hA, toWord_toReg (Width.bits_le _)]
  · rw [hB, toWord_toReg (Width.bits_le _)]
  · rw [hI, BitVec.toNat_ofNat, Nat.mod_eq_of_lt (by omega)]
  · rw [hJ, BitVec.toNat_ofNat, Nat.mod_eq_of_lt (by omega)]

/-- Settles O25: the loop's end in the tables and in the registers, and one iteration in arithmetic. -/
theorem mixResult : Obligations.MixResult := by
  refine ⟨rfl, fun s => ?_, mixStep_arith⟩
  obtain ⟨hS, hL, hSabove, hLabove⟩ := s.work.mix_tables
  obtain ⟨hA, hB, hI, hJ⟩ := s.work.mix_registers
  exact ⟨s.onWork Working.mix, s.work.mixed, s.work.mixed_eq_iterate, rfl, hS, hL, hSabove, hLabove, hA, hB, hI, hJ,
    rfl⟩

/-! ### KS.SCHEDULE -/

theorem exec_ksSchedule (s : State) : exec .ksSchedule s = execAll [.ksExpand, .ksMix] s := rfl

/-- Settles O26: on a supplied key the schedule is KS.EXPAND and then KS.MIX on the working state. -/
theorem scheduleResult : Obligations.ScheduleResult := by
  refine ⟨rfl, exec_ksSchedule, fun s key hkey => ?_⟩
  have hb : key.length = s.work.par.b.toNat := Memory.readN_length hkey
  obtain ⟨hpar, hS, hL⟩ := (s.work.expand_withinBounds hb).trans (s.work.expand key).mix_withinBounds
  exact ⟨s.scheduled key, execKsSchedule_some hkey, s.work.schedule_table hb, hS, hL, hpar, rfl, rfl, rfl, rfl⟩

/-! ### The table -/

theorem subkeys_length (w : Width) (r : Nat) (key : List Byte) : (subkeys w r key).length = tableLen r := by
  rw [subkeys, (mixAll_lengths _ _ _ _).1, seqList_length]

/-- Settles O27: mixing keeps the number of words that the generator emits. -/
theorem subkeyTableShape : Obligations.SubkeyTableShape := fun w r key =>
  (subkeys_length w r key).trans (Nat.mul_succ 2 r)

end Sys2Proof.Machine
end

section
/-! The block round function: a round in arithmetic and undone, the block functions from r rounds to r + 1, and the
statements about them (`43_block_round.md` R170 to R175). -/

namespace Sys2Proof.Machine

/-! ### One line of a round -/

/-- The decode line undoes the encode line: the same subkey, rotation amount and other word. -/
theorem xorW_rotr_subW_addW_rotl_xorW {w : Nat} (x y k : BitVec w) (n : Nat) :
    xorW (rotr (subW (addW (rotl (xorW x y) n) k) k) n) y = x := by
  have hsum : subW (addW (rotl (xorW x y) n) k) k = rotl (xorW x y) n := BitVec.add_sub_cancel _ k
  rw [hsum, rotr_rotl, xorW_xorW]

/-- The encode line undoes the decode line. -/
theorem addW_rotl_xorW_xorW_rotr_subW {w : Nat} (x y k : BitVec w) (n : Nat) :
    addW (rotl (xorW (xorW (rotr (subW x k) n) y) y) n) k = x := by
  rw [xorW_xorW, rotl_rotr]
  exact BitVec.sub_add_cancel x k

@[simp] theorem xorW_toNat {w : Nat} (a b : BitVec w) : (xorW a b).toNat = a.toNat ^^^ b.toNat := BitVec.toNat_xor a b

/-- Subtraction as one reduction (`40_word_arithmetic.md` R113). -/
theorem subW_toNat_mod {w : Nat} (a b : BitVec w) : (subW a b).toNat = (a.toNat + 2 ^ w - b.toNat) % 2 ^ w := by
  have hb := b.isLt
  rw [subW, BitVec.toNat_sub, Nat.add_comm a.toNat, Nat.sub_add_comm hb.le]

theorem subkey_eq {w : Nat} (S : List (BitVec w)) (i : Nat) : subkey S i = S[i]?.getD 0 :=
  List.getD_eq_getElem?_getD

/-- An encode line in arithmetic (R170). -/
theorem encLine_toNat {w : Width} (x y : Word w) (S : List (Word w)) (i : Nat) :
    (addW (rotl (xorW x y) (val y)) (subkey S i)).toNat =
      (rotlNat w.bits (x.toNat ^^^ y.toNat) y.toNat + (S[i]?.getD 0).toNat) % 2 ^ w.bits := by
  rw [addW_toNat, rotl_toNat (Width.bits_pos w), xorW_toNat, val, subkey_eq]

/-- A decode line in arithmetic (R171). -/
theorem decLine_toNat {w : Width} (x y : Word w) (S : List (Word w)) (i : Nat) :
    (xorW (rotr (subW x (subkey S i)) (val y)) y).toNat =
      rotrNat w.bits ((x.toNat + 2 ^ w.bits - (S[i]?.getD 0).toNat) % 2 ^ w.bits) y.toNat ^^^ y.toNat := by
  rw [xorW_toNat, rotr_toNat (Width.bits_pos w), subW_toNat_mod, val, subkey_eq]

/-! ### One round -/

/-- Decode undoes the B line first, with the A that encode used in it; that gives the B that the A line used (R175). -/
theorem decRound_encRound {w : Nat} (S : List (BitVec w)) (rnd : Nat) (ab : Block w) :
    decRound S rnd (encRound S rnd ab) = ab := by
  have hB : (decRound S rnd (encRound S rnd ab)).2 = ab.2 := xorW_rotr_subW_addW_rotl_xorW ..
  refine Prod.ext ?_ hB
  calc (decRound S rnd (encRound S rnd ab)).1
      = xorW (rotr (subW (encRound S rnd ab).1 (subkey S (2 * rnd))) (val ab.2)) ab.2 := by rw [← hB]; rfl
    _ = ab.1 := xorW_rotr_subW_addW_rotl_xorW ..

/-- Encode undoes the A line first, with the B that decode used in it; that gives the A that the B line used (R175). -/
theorem encRound_decRound {w : Nat} (S : List (BitVec w)) (rnd : Nat) (ab : Block w) :
    encRound S rnd (decRound S rnd ab) = ab := by
  have hA : (encRound S rnd (decRound S rnd ab)).1 = ab.1 := addW_rotl_xorW_xorW_rotr_subW ..
  refine Prod.ext hA ?_
  calc (encRound S rnd (decRound S rnd ab)).2
      = addW (rotl (xorW (decRound S rnd ab).2 ab.1) (val ab.1)) (subkey S (2 * rnd + 1)) := by rw [← hA]; rfl
    _ = ab.2 := addW_rotl_xorW_xorW_rotr_subW ..

theorem encRound_congr {w rnd : Nat} {S S' : List (BitVec w)} (hA : subkey S (2 * rnd) = subkey S' (2 * rnd))
    (hB : subkey S (2 * rnd + 1) = subkey S' (2 * rnd + 1)) (ab : Block w) :
    encRound S rnd ab = encRound S' rnd ab := by rw [encRound, encRound, hA, hB]

theorem decRound_congr {w rnd : Nat} {S S' : List (BitVec w)} (hA : subkey S (2 * rnd) = subkey S' (2 * rnd))
    (hB : subkey S (2 * rnd + 1) = subkey S' (2 * rnd + 1)) (ab : Block w) :
    decRound S rnd ab = decRound S' rnd ab := by rw [decRound, decRound, hA, hB]

/-! ### The block functions, from r rounds to r + 1 -/

theorem encBlock_zero {w : Nat} (S : List (BitVec w)) (ab : Block w) :
    encBlock 0 S ab = (addW ab.1 (subkey S 0), addW ab.2 (subkey S 1)) := rfl

theorem decBlock_zero {w : Nat} (S : List (BitVec w)) (ab : Block w) :
    decBlock 0 S ab = (subW ab.1 (subkey S 0), subW ab.2 (subkey S 1)) := rfl

theorem encBlock_succ {w : Nat} (r : Nat) (S : List (BitVec w)) (ab : Block w) :
    encBlock (r + 1) S ab = encRound S (r + 1) (encBlock r S ab) := rfl

theorem decBlock_succ {w : Nat} (r : Nat) (S : List (BitVec w)) (ab : Block w) :
    decBlock (r + 1) S ab = decBlock r S (decRound S (r + 1) ab) := rfl

/-- Decode starts with the round that encode ends with. -/
theorem decBlock_encBlock {w : Nat} (r : Nat) (S : List (BitVec w)) (ab : Block w) :
    decBlock r S (encBlock r S ab) = ab := by
  induction r with
  | zero => exact Prod.ext (BitVec.add_sub_cancel ab.1 _) (BitVec.add_sub_cancel ab.2 _)
  | succ r ih => rw [encBlock_succ, decBlock_succ, decRound_encRound, ih]

/-- Encode ends with the round that decode starts with. -/
theorem encBlock_decBlock {w : Nat} (r : Nat) (S : List (BitVec w)) (ab : Block w) :
    encBlock r S (decBlock r S ab) = ab := by
  induction r generalizing ab with
  | zero => exact Prod.ext (BitVec.sub_add_cancel ab.1 _) (BitVec.sub_add_cancel ab.2 _)
  | succ r ih => rw [decBlock_succ, encBlock_succ, ih, encRound_decRound]

/-- Settles O29: a round undoes the other direction's, and so do the rounds one inside the other. -/
theorem blockInverse : Obligations.BlockInverse := fun _ r S ab => ⟨decBlock_encBlock r S ab, encBlock_decBlock r S ab⟩

theorem encBlock_congr {w r : Nat} {S S' : List (BitVec w)} (h : ∀ i < 2 * r + 2, subkey S i = subkey S' i)
    (ab : Block w) : encBlock r S ab = encBlock r S' ab := by
  induction r with
  | zero => rw [encBlock_zero, encBlock_zero, h 0 (by decide), h 1 (by decide)]
  | succ r ih =>
    rw [encBlock_succ, encBlock_succ, ih fun i hi => h i (by omega),
      encRound_congr (h _ (by omega)) (h _ (by omega))]

theorem decBlock_congr {w r : Nat} {S S' : List (BitVec w)} (h : ∀ i < 2 * r + 2, subkey S i = subkey S' i)
    (ab : Block w) : decBlock r S ab = decBlock r S' ab := by
  induction r generalizing ab with
  | zero => rw [decBlock_zero, decBlock_zero, h 0 (by decide), h 1 (by decide)]
  | succ r ih =>
    rw [decBlock_succ, decBlock_succ, ih fun i hi => h i (by omega),
      decRound_congr (h _ (by omega)) (h _ (by omega))]

/-- Settles O31: round r reads the entries 2r and 2r + 1, and the entries 0 and 1 are read outside the rounds. -/
theorem subkeysReadByBlock : Obligations.SubkeysReadByBlock := by
  intro w r S S' hagree ab
  have h : ∀ i < 2 * r + 2, subkey S i = subkey S' i := fun i hi => by rw [subkey_eq, subkey_eq, hagree i hi]
  exact ⟨encBlock_congr h ab, decBlock_congr h ab⟩

/-! ### No round, and one round more, in arithmetic -/

theorem addW_eq_ofNat {w : Nat} (a b : BitVec w) : addW a b = BitVec.ofNat w (a.toNat + b.toNat) :=
  BitVec.eq_of_toNat_eq (by rw [addW_toNat, BitVec.toNat_ofNat])

theorem subW_eq_ofNat {w : Nat} (a b : BitVec w) : subW a b = BitVec.ofNat w (a.toNat + 2 ^ w - b.toNat) :=
  BitVec.eq_of_toNat_eq (by rw [subW_toNat_mod, BitVec.toNat_ofNat])

/-- Settles O30: the entries 0 and 1 are the first two of the list. -/
theorem roundCountZero : Obligations.RoundCountZero := fun _ s₀ s₁ a b _ =>
  ⟨Prod.ext (addW_eq_ofNat a s₀) (addW_eq_ofNat b s₁), Prod.ext (subW_eq_ofNat a s₀) (subW_eq_ofNat b s₁)⟩

/-! ### BLK.ENC and BLK.DEC -/

theorem exec_blkEnc (s : State) : exec .blkEnc s = .next (s.onWork Working.blkEnc) := rfl

theorem exec_blkDec (s : State) : exec .blkDec s = .next (s.onWork Working.blkDec) := rfl

/-- A block put in two registers is read back. -/
theorem toWord_toReg_block {w : Width} (ab : Block w.bits) :
    (toWord w.bits (toReg ab.1), toWord w.bits (toReg ab.2)) = ab :=
  Prod.ext (toWord_toReg (Width.bits_le w) ab.1) (toWord_toReg (Width.bits_le w) ab.2)

/-- Settles O28: the block read back from the registers, and the two lines of the round in arithmetic. -/
theorem blockOperationResults : Obligations.BlockOperationResults := by
  refine ⟨rfl, rfl, fun s => ?_, fun w r S ab => ?_, fun w r S a b => ?_⟩
  · exact ⟨s.onWork Working.blkEnc, s.onWork Working.blkDec, exec_blkEnc s, toWord_toReg_block _, rfl,
      exec_blkDec s, toWord_toReg_block _, rfl⟩
  · exact ⟨(encBlock r S ab).1, (encBlock r S ab).2, (encBlock (r + 1) S ab).1, (encBlock (r + 1) S ab).2, rfl, rfl,
      encLine_toNat .., encLine_toNat ..⟩
  · exact ⟨(decRound S (r + 1) (a, b)).1, (decRound S (r + 1) (a, b)).2, decBlock_succ r S (a, b),
      decLine_toNat .., decLine_toNat ..⟩

end Sys2Proof.Machine
end

section
/-! The codec on words: split, join and the block function on pairs, word by word, part by part and undone, and the
statements about the bytes a command returns (`44_block_codec.md` R191 to R199). -/

namespace Sys2Proof.Machine

/-! ### Split and join -/

section
variable (w : Width)

theorem joinWords_cons (x : Word w) (xs : List (Word w)) :
    joinWords w (x :: xs) = toLE w.bytes x ++ joinWords w xs := rfl

theorem joinWords_append (xs ys : List (Word w)) : joinWords w (xs ++ ys) = joinWords w xs ++ joinWords w ys :=
  List.flatMap_append

/-- Word k of the split is the word of the u bytes from k * u on (`44_block_codec.md` R191). -/
theorem splitWords_getElem? {n k : Nat} (hk : k < n) (bs : List Byte) :
    (splitWords w n bs)[k]? = some (fromLE w.bits ((bs.drop (k * w.bytes)).take w.bytes)) := by
  induction n generalizing k bs with
  | zero => omega
  | succ n ih =>
    cases k with
    | zero => simp [splitWords]
    | succ k =>
      rw [splitWords, List.getElem?_cons_succ, ih (Nat.lt_of_succ_lt_succ hk), List.drop_drop, Nat.succ_mul,
        Nat.add_comm]

/-- Bytes of whole words are split part by part. -/
theorem splitWords_append {m : Nat} {xs : List Byte} (hlen : xs.length = m * w.bytes) (n : Nat) (ys : List Byte) :
    splitWords w (m + n) (xs ++ ys) = splitWords w m xs ++ splitWords w n ys := by
  induction m generalizing xs with
  | zero =>
    rw [Nat.zero_mul, List.length_eq_zero_iff] at hlen
    rw [hlen, Nat.zero_add]
    rfl
  | succ m ih =>
    rw [Nat.succ_mul] at hlen
    rw [Nat.succ_add, splitWords, splitWords, List.take_append_of_le_length (by omega),
      List.drop_append_of_le_length (by omega), ih (by rw [List.length_drop]; omega), List.cons_append]

/-- Joining undoes splitting (`44_block_codec.md` R192). -/
theorem joinWords_splitWords {n : Nat} {bs : List Byte} (hlen : bs.length = n * w.bytes) :
    joinWords w (splitWords w n bs) = bs := by
  induction n generalizing bs with
  | zero =>
    rw [Nat.zero_mul, List.length_eq_zero_iff] at hlen
    rw [hlen]
    rfl
  | succ n ih =>
    rw [Nat.succ_mul] at hlen
    rw [splitWords, joinWords_cons, toLE_fromLE (by rw [List.length_take]; omega),
      ih (by rw [List.length_drop]; omega), List.take_append_drop]

/-- Splitting undoes joining. -/
theorem splitWords_joinWords (ws : List (Word w)) : splitWords w ws.length (joinWords w ws) = ws := by
  induction ws with
  | nil => rfl
  | cons x xs ih =>
    rw [List.length_cons, splitWords, joinWords_cons, List.take_left' (toLE_length _ x),
      List.drop_left' (toLE_length _ x), fromLE_toLE, ih]

/-- Byte i of word k of a join stands at k * u + i (`44_block_codec.md` R192). -/
theorem joinWords_getElem? {ws : List (Word w)} {k i : Nat} (hk : k < ws.length) (hi : i < w.bytes) :
    (joinWords w ws)[k * w.bytes + i]? = some (BitVec.ofNat 8 ((ws[k]?.getD 0).toNat / 2 ^ (8 * i))) := by
  induction ws generalizing k with
  | nil => cases hk
  | cons x xs ih =>
    rw [joinWords_cons]
    cases k with
    | zero =>
      rw [Nat.zero_mul, Nat.zero_add, List.getElem?_append_left (by rwa [toLE_length]), toLE, List.getElem?_map,
        List.getElem?_range hi, Option.map_some, BitVec.extractLsb', Nat.shiftRight_eq_div_pow]
      rfl
    | succ k =>
      rw [Nat.succ_mul, List.getElem?_append_right (by rw [toLE_length]; omega), toLE_length,
        show k * w.bytes + w.bytes + i - w.bytes = k * w.bytes + i by omega, ih (Nat.lt_of_succ_lt_succ hk),
        List.getElem?_cons_succ]

end

/-- Settles O35: a length that is a multiple of u is one of whole words. -/
theorem joinAfterSplit : Obligations.JoinAfterSplit := fun w _ hwhole =>
  joinWords_splitWords w (Nat.div_mul_cancel (Nat.dvd_of_mod_eq_zero hwhole)).symm

/-! ### The block function on pairs -/

section
variable {w : Nat} (F : Block w → Block w)

/-- Output pair m is the block function of input pair m alone (`44_block_codec.md` R193). -/
theorem applyPairs_getD : ∀ (ws : List (BitVec w)) {m : Nat}, m < ws.length / 2 →
    ((applyPairs F ws).getD (2 * m) 0, (applyPairs F ws).getD (2 * m + 1) 0) =
      F (ws.getD (2 * m) 0, ws.getD (2 * m + 1) 0)
  | [], _, hm => by simp at hm
  | [_], _, hm => by simp at hm
  | _ :: _ :: _, 0, _ => rfl
  | a :: b :: ws, m + 1, hm => applyPairs_getD ws (m := m) (by simp only [List.length_cons] at hm; omega)

/-- Whole pairs are transformed part by part: no pair sees another (`44_block_codec.md` R197). -/
theorem applyPairs_append (ys : List (BitVec w)) : ∀ xs : List (BitVec w), xs.length % 2 = 0 →
    applyPairs F (xs ++ ys) = applyPairs F xs ++ applyPairs F ys
  | [], _ => rfl
  | [_], h => by simp at h
  | a :: b :: xs, h => by
    simp only [List.cons_append, applyPairs]
    rw [applyPairs_append ys xs (by simp only [List.length_cons] at h; omega)]

end

/-- A block function that undoes another undoes it on every pair. -/
theorem applyPairs_leftInverse {w : Nat} {F G : Block w → Block w} (hinv : ∀ ab, G (F ab) = ab) :
    ∀ ws : List (BitVec w), ws.length % 2 = 0 → applyPairs G (applyPairs F ws) = ws
  | [], _ => rfl
  | [_], h => by simp at h
  | a :: b :: ws, h => by
    have ih := applyPairs_leftInverse hinv ws (by simp only [List.length_cons] at h; omega)
    simp only [applyPairs, Prod.mk.eta, hinv, ih]

/-! ### The bytes of a command -/

/-- The length tests together: a whole number of blocks of two words (`44_block_codec.md` R190). -/
theorem validLength_iff_blocks (w : Width) (N : Nat) : validLength w N = true ↔ N % (2 * w.bytes) = 0 := by
  have hu : w.bytes ≠ 0 := (Width.bytes_pos w).ne'
  rw [validLength_iff, Nat.mul_comm, Nat.mod_mul]
  simp [hu]

/-- Whole blocks are an even number of words. -/
theorem words_of_blocks {w : Width} {data : List Byte} (hblocks : data.length % (2 * w.bytes) = 0) :
    ∃ n, data.length = 2 * n * w.bytes := by
  obtain ⟨n, hn⟩ := Nat.dvd_of_mod_eq_zero hblocks
  exact ⟨n, by rw [hn, Nat.mul_right_comm]⟩

section
variable (dir : Dir) (w : Width) (r : Nat) (key : List Byte)

/-- The bytes of n words transformed. -/
theorem transform_of_words {data : List Byte} {n : Nat} (hlen : data.length = n * w.bytes) :
    transform dir w r key data =
      joinWords w (applyPairs (blockFn dir r (subkeys w r key)) (splitWords w n data)) := by
  rw [transform, hlen, Nat.mul_div_cancel _ (Width.bytes_pos w)]

/-- Whole blocks come out as long as they went in (`44_block_codec.md` R196). -/
theorem transform_length {data : List Byte} (hblocks : data.length % (2 * w.bytes) = 0) :
    (transform dir w r key data).length = data.length := by
  obtain ⟨n, hlen⟩ := words_of_blocks hblocks
  rw [transform_of_words dir w r key hlen, joinWords_length, applyPairs_length _ _ (by simp), splitWords_length, hlen]

/-- Whole blocks are transformed part by part (`44_block_codec.md` R197). -/
theorem transform_append {d₁ d₂ : List Byte} (h₁ : d₁.length % (2 * w.bytes) = 0)
    (h₂ : d₂.length % (2 * w.bytes) = 0) :
    transform dir w r key (d₁ ++ d₂) = transform dir w r key d₁ ++ transform dir w r key d₂ := by
  obtain ⟨m, hm⟩ := words_of_blocks h₁
  obtain ⟨n, hn⟩ := words_of_blocks h₂
  have hlen : (d₁ ++ d₂).length = (2 * m + 2 * n) * w.bytes := by rw [List.length_append, hm, hn, Nat.add_mul]
  rw [transform_of_words dir w r key hlen, transform_of_words dir w r key hm, transform_of_words dir w r key hn,
    splitWords_append w hm, applyPairs_append _ _ _ (by simp), joinWords_append]

/-- The bytes at the place of a part of whole blocks are the part transformed, whatever stands around it. -/
theorem transform_part {d₁ d d₂ : List Byte} (h₁ : d₁.length % (2 * w.bytes) = 0)
    (h : d.length % (2 * w.bytes) = 0) (h₂ : d₂.length % (2 * w.bytes) = 0) :
    ((transform dir w r key (d₁ ++ (d ++ d₂))).drop d₁.length).take d.length = transform dir w r key d := by
  have hrest : (d ++ d₂).length % (2 * w.bytes) = 0 := by rw [List.length_append, Nat.add_mod, h, h₂, Nat.zero_mod]
  rw [transform_append dir w r key h₁ hrest, transform_append dir w r key h h₂,
    List.drop_left' (transform_length dir w r key h₁), List.take_left' (transform_length dir w r key h)]

/-- One block is the block function of its two words. -/
theorem transform_block {data : List Byte} (hlen : data.length = 2 * w.bytes) :
    transform dir w r key data =
      joinWords w [(blockFn dir r (subkeys w r key)
          (fromLE w.bits (data.take w.bytes), fromLE w.bits ((data.drop w.bytes).take w.bytes))).1,
        (blockFn dir r (subkeys w r key)
          (fromLE w.bits (data.take w.bytes), fromLE w.bits ((data.drop w.bytes).take w.bytes))).2] :=
  transform_of_words dir w r key hlen

end

/-- Settles O45: the parts are split, transformed and joined each by itself. -/
theorem noChaining : Obligations.NoChaining := fun dir w r key _ _ h₁ h₂ => transform_append dir w r key h₁ h₂

/-- Settles O44: the output is that of the bytes before the block, that of the block and that of the bytes after it. -/
theorem outputBlockOfInputBlock : Obligations.OutputBlockOfInputBlock := by
  intro dir w r key data m hblocks hm
  have hroom : m * (2 * w.bytes) + 2 * w.bytes ≤ data.length := by
    rw [← Nat.succ_mul]
    exact (Nat.le_div_iff_mul_le (Nat.mul_pos (by decide) (Width.bytes_pos w))).1 hm
  have hbefore : (data.take (m * (2 * w.bytes))).length = m * (2 * w.bytes) := by rw [List.length_take]; omega
  have hblock : ((data.drop (m * (2 * w.bytes))).take (2 * w.bytes)).length = 2 * w.bytes := by
    rw [List.length_take, List.length_drop]; omega
  have hafter : ((data.drop (m * (2 * w.bytes))).drop (2 * w.bytes)).length % (2 * w.bytes) = 0 := by
    rw [List.length_drop, List.length_drop, ← Nat.mod_eq_sub_mod (by omega), Nat.mul_comm m,
      Nat.sub_mul_mod (by rw [Nat.mul_comm]; omega), hblocks]
  have hpart := transform_part dir w r key (by rw [hbefore, Nat.mul_mod_left]) (by rw [hblock, Nat.mod_self]) hafter
  rw [List.take_append_drop, List.take_append_drop, hbefore, hblock, transform_block dir w r key hblock] at hpart
  rw [hpart, List.take_take, List.drop_take, List.take_take, List.drop_drop, Nat.min_eq_left (by omega),
    Nat.min_eq_left (by omega)]

/-! ### Decode undoes encode -/

/-- A command whose block function undoes that of another direction gives the data back. -/
theorem transform_leftInverse {dir dir' : Dir} {w : Width} {r : Nat} {key data : List Byte}
    (hinv : ∀ ab : Block w.bits, blockFn dir' r (subkeys w r key) (blockFn dir r (subkeys w r key) ab) = ab)
    (hblocks : data.length % (2 * w.bytes) = 0) :
    transform dir' w r key (transform dir w r key data) = data := by
  obtain ⟨n, hlen⟩ := words_of_blocks hblocks
  have hwords : (applyPairs (blockFn dir r (subkeys w r key)) (splitWords w (2 * n) data)).length = 2 * n := by
    rw [applyPairs_length _ _ (by simp), splitWords_length]
  have hcoded := splitWords_joinWords w (applyPairs (blockFn dir r (subkeys w r key)) (splitWords w (2 * n) data))
  rw [hwords] at hcoded
  rw [transform_of_words dir' w r key ((transform_length dir w r key hblocks).trans hlen),
    transform_of_words dir w r key hlen, hcoded, applyPairs_leftInverse hinv _ (by simp), joinWords_splitWords w hlen]

/-- Settles O47: the block functions of the two directions undo each other. -/
theorem encodeUndoesDecode : Obligations.EncodeUndoesDecode := fun _ r _ _ hblocks =>
  transform_leftInverse (encBlock_decBlock r _) hblocks

end Sys2Proof.Machine
end

section
/-! The codec's unit operations on a state, and the statements about them (`44_block_codec.md` R190 to R193). -/

namespace Sys2Proof.Machine

/-! ### Lists of registers and of words -/

theorem toReg_zero {w : Nat} : toReg (0 : BitVec w) = 0 := BitVec.setWidth_zero ..

theorem toWord_zero {w : Nat} : toWord w 0 = 0 := BitVec.setWidth_zero ..

/-- Beyond the end of a list stands 0, on both sides of a map that keeps 0. -/
theorem getD_map_of_zero {m n : Nat} {f : BitVec m → BitVec n} (hf : f 0 = 0) (xs : List (BitVec m)) (i : Nat) :
    (xs.map f)[i]?.getD 0 = f (xs[i]?.getD 0) := by
  have h := Option.getD_map f 0 xs[i]?
  rwa [hf, ← List.getElem?_map] at h

/-! ### CDC.VALIDATE -/

/-- CDC.VALIDATE raises WrongInputSize exactly when a length test fails (`44_block_codec.md` R190). -/
theorem exec_cdcValidate (s : State) : exec .cdcValidate s =
    if validLength s.work.par.w s.work.par.N then .next s else .next (raise .wrongInputSize s) := rfl

/-- Settles O32: the two tests are the branch, and together they ask for whole blocks. -/
theorem validateResult : Obligations.ValidateResult := by
  refine ⟨rfl, fun s => ⟨fun hvalid => ?_, fun hfails => ?_, validLength_iff_blocks _ _⟩⟩
  · rw [exec_cdcValidate, if_pos ((validLength_iff _ _).2 hvalid)]
  · rw [exec_cdcValidate, if_neg fun hv => ?_]
    · rfl
    · obtain ⟨hwhole, heven⟩ := (validLength_iff _ _).1 hv
      exact hfails.elim (· hwhole) (· heven)

/-! ### CDC.SPLIT -/

/-- CDC.SPLIT puts the whole words in the port, and nothing after them when N is a whole number of words
(`44_block_codec.md` R191; notes/assumptions/22.md). -/
theorem execCdcSplit_words {s : State} {p : Params} {data : List Byte} (hp : s.work.par = p)
    (hdata : s.din.readN 0 (p.N / p.u * p.u) = some data) :
    ∃ extra n, execCdcSplit s = .next { s with
        work := s.work.setWords ((splitWords p.w (p.N / p.u) data).map toReg ++ extra), draws := n } ∧
      (p.N % p.u = 0 → extra = [] ∧ n = s.draws) := by
  by_cases hwhole : p.N % p.u = 0
  · refine ⟨[], s.draws, ?_, fun _ => ⟨rfl, rfl⟩⟩
    rw [Nat.div_mul_cancel (Nat.dvd_of_mod_eq_zero hwhole)] at hdata
    rw [execCdcSplit_some hp hwhole hdata, List.append_nil]
    rfl
  · exact ⟨_, _, execCdcSplit_partial hp hwhole hdata, fun h => absurd h hwhole⟩

/-- Settles O33: the whole words are the split of the bytes read. -/
theorem splitResult : Obligations.SplitResult := by
  refine ⟨rfl, fun s data hdata => ?_⟩
  obtain ⟨extra, n, hrun, hexact⟩ := execCdcSplit_words rfl hdata
  refine ⟨_, _, hrun, by simp, fun k hk => ?_, rfl, fun hwhole => ?_⟩
  · rw [List.getElem?_append_left (by simpa using hk), List.getElem?_map, splitWords_getElem? _ hk, Option.map_some]
  · obtain ⟨rfl, rfl⟩ := hexact hwhole
    exact ⟨by simp, rfl⟩

/-! ### CDC.JOIN -/

/-- Settles O34: joining the words writes their bytes from address 0 on. -/
theorem joinResult : Obligations.JoinResult := by
  refine ⟨rfl, fun s hroom => ⟨_, execCdcJoin_room rfl hroom, fun k hk i hi => ?_, ?_⟩⟩
  · have hbyte := joinWords_getElem? s.work.par.w (ws := s.work.ports.words.map (toWord s.work.par.bits)) (k := k)
      (by rwa [List.length_map]) hi
    obtain ⟨hlt, -⟩ := List.getElem?_eq_some_iff.1 hbyte
    rw [Memory.read_writeN, if_pos ⟨Nat.zero_le _, by rwa [Nat.zero_add]⟩, Nat.sub_zero, hbyte,
      getD_map_of_zero toWord_zero]
  · have hframe := Memory.writeN_sameOutside s.dout 0
      (joinWords s.work.par.w (s.work.ports.words.map (toWord s.work.par.bits)))
    rwa [joinWords_length, List.length_map] at hframe

/-! ### CDC.APPLY -/

/-- CDC.APPLY on any list of words: the whole pairs transformed, a free word after them on an odd list, and beside the
list only the block in the registers and the counter change (`44_block_codec.md` R193; notes/assumptions/23.md). -/
theorem execCdcApply_pairs {s : State} {p : Params} (hp : s.work.par = p) :
    ∃ wk n extra, execCdcApply s = .next { s with work := wk, draws := n } ∧
      (s.work.setWords wk.ports.words).SameButBlock wk ∧
      wk.ports.words =
        (applyPairs (p.blockUnder s.work.S) (s.work.ports.words.map (toWord p.bits))).map toReg ++ extra ∧
      wk.ports.words.length = s.work.ports.words.length ∧ (s.work.ports.words.length % 2 = 0 → n = s.draws) := by
  obtain ⟨wk, hsame, ⟨heven, hrun, hwords⟩ | ⟨hodd, hrun, hwords⟩⟩ := execCdcApply_cases hp
  · refine ⟨wk, s.draws, [], hrun, hsame, by rw [hwords, List.append_nil, Params.blockUnder], ?_, fun _ => rfl⟩
    rw [hwords, List.length_map, applyPairs_length_pairs, List.length_map]
    omega
  · refine ⟨wk, s.draws + 1, _, hrun, hsame, hwords, ?_, fun heven => absurd heven hodd⟩
    rw [hwords, List.length_append, List.length_map, applyPairs_length_pairs, List.length_map, List.length_singleton]
    omega

/-- Settles O36: the transformed pairs come first in the list, and beside it only the block in the registers changes. -/
theorem applyResult : Obligations.ApplyResult := by
  refine ⟨rfl, fun s => ?_⟩
  obtain ⟨wk, n, extra, hrun, hsame, hwords, hlen, hdraws⟩ := execCdcApply_pairs (s := s) rfl
  refine ⟨_, wk.ports.words, hrun, hlen, fun m hm => ?_, ?_, hdraws⟩
  · have hpairs := applyPairs_length_pairs (s.work.par.blockUnder s.work.S)
      (s.work.ports.words.map (toWord s.work.par.bits))
    rw [List.length_map] at hpairs
    have hpair := applyPairs_getD (s.work.par.blockUnder s.work.S) (s.work.ports.words.map (toWord s.work.par.bits))
      (m := m) (by rwa [List.length_map])
    simp only [List.getD_eq_getElem?_getD, getD_map_of_zero toWord_zero] at hpair
    rw [hwords, List.getElem?_append_left (by rw [List.length_map]; omega),
      List.getElem?_append_left (by rw [List.length_map]; omega), getD_map_of_zero toReg_zero,
      getD_map_of_zero toReg_zero]
    exact congrArg (Prod.map toReg toReg) hpair
  · exact congrArg (fun x => { s with work := x, draws := n }) hsame.eq

end Sys2Proof.Machine
end

section
/-! The commands on supplied bytes: the response, the round trip, and that a step sees the request alone
(`44_block_codec.md` R194 to R200). -/

namespace Sys2Proof.Machine

/-- One of the ten commands on supplied whole blocks: OK with the bytes transformed, which it has written to DOUT from
address 0 on (`44_block_codec.md` R194, R195). -/
theorem exec_command_of_blocks {dir : Dir} {w : Width} {r : Nat} {key data : List Byte} {s : State} (hr : r ≤ 255)
    (hkey : key.length ≤ 255) (hblocks : data.length % (2 * w.bytes) = 0) (hs : s.Supplies key data) :
    exec (Instr.command dir w r key.length data.length) s =
      .next (s.answered { status := .ok, out := transform dir w r key data }
        (s.dout.writeN 0 (transform dir w r key data))) := by
  rw [exec_command, runCommand_of_supplied (Nat.lt_succ_of_le hr) (Nat.lt_succ_of_le hkey)
    ((validLength_iff_blocks _ _).2 hblocks) hs]

/-- Settles O38: the answered state has everything but the response, the phase, DOUT and the working state as before. -/
theorem commandAnswersOk : Obligations.CommandAnswersOk := by
  intro dir w r key data s hr hkey hwhole heven hs
  have hblocks := (validLength_iff_blocks _ _).1 ((validLength_iff _ _).2 ⟨hwhole, heven⟩)
  exact ⟨_, exec_command_of_blocks hr hkey hblocks hs, rfl, rfl, rfl, rfl, rfl, rfl, rfl⟩

/-- Settles O42: of all that a command can do, OK comes with N bytes. -/
theorem outputLengthIsInputLength : Obligations.OutputLengthIsInputLength := by
  intro dir w r klen len s t out h hresp
  rw [exec_command] at h
  obtain rfl | ⟨bs, hlen, rfl⟩ := runCommand_next h <;> cases hresp
  exact hlen

/-- Settles O46: both commands answer the transform of their data, and that of DEC undoes that of ENC. -/
theorem decodeUndoesEncode : Obligations.DecodeUndoesEncode := by
  intro w r key data s hr hkey hblocks hs
  have hlen := transform_length .enc w r key hblocks
  refine ⟨_, _, exec_command_of_blocks hr hkey hblocks hs, rfl, hlen, fun s' hs' => ?_⟩
  have hdecoded : transform .dec w r key (transform .enc w r key data) = data :=
    transform_leftInverse (decBlock_encBlock r _) hblocks
  refine ⟨_, exec_command_of_blocks hr hkey (by rwa [hlen]) hs', ?_⟩
  rw [hdecoded]
  rfl

/-- Bytes that agree are read alike. -/
theorem Memory.readN_congr {m m' : Memory} {a n : Nat} (h : ∀ i < n, m.read (a + i) = m'.read (a + i)) :
    m.readN a n = m'.readN a n := by
  refine Option.ext fun bs => ?_
  rw [Memory.readN_eq_some, Memory.readN_eq_some]
  exact and_congr_right fun _ => forall₂_congr fun i hi => by rw [h i hi]

section
variable {s : State} {dir : Dir} {w : Width} {r klen len : Nat}

/-- The key bytes of a command are those below its KLEN (`20_memory.md` R51). -/
theorem start_keyBytes (hb : klen < 256) :
    (start (Params.ofCommand dir w r klen len) s).keyBytes = s.key.readN 0 klen := by
  simp only [State.keyBytes, start_work, start_key, Params.ofCommand, BitVec.toNat_ofNat, Nat.mod_eq_of_lt hb]

/-- A command that passes validation stops at a key byte that is not supplied (notes/assumptions/8.md). -/
theorem runCommand_of_key_absent (hb : klen < 256) (hv : validLength w len = true)
    (hkey : s.key.readN 0 klen = none) : runCommand dir w r klen len s = .fault (.byteAbsent .key) := by
  rw [runCommand, if_pos hv, encipher_of_key_absent ((start_keyBytes hb).trans hkey)]

/-- A command that passes validation and has its key bytes stops at a data byte that is not supplied
(notes/assumptions/8.md). -/
theorem runCommand_of_data_absent {key : List Byte} (hb : klen < 256) (hv : validLength w len = true)
    (hkey : s.key.readN 0 klen = some key) (hdata : s.din.readN 0 len = none) :
    runCommand dir w r klen len s = .fault (.byteAbsent .din) := by
  rw [runCommand, if_pos hv, encipher_of_data_absent (p := Params.ofCommand dir w r klen len) rfl hv
    ((start_keyBytes hb).trans hkey) hdata]

/-- A command that passes validation and completes has been supplied its bytes. -/
theorem supplies_of_runCommand_next {t : State} (hb : klen < 256) (hv : validLength w len = true)
    (h : runCommand dir w r klen len s = .next t) :
    ∃ key data, key.length = klen ∧ data.length = len ∧ s.Supplies key data := by
  cases hkey : s.key.readN 0 klen with
  | none => rw [runCommand_of_key_absent hb hv hkey] at h; cases h
  | some key =>
    cases hdata : s.din.readN 0 len with
    | none => rw [runCommand_of_data_absent hb hv hkey hdata] at h; cases h
    | some data =>
      have hklen := Memory.readN_length hkey
      have hlen := Memory.readN_length hdata
      exact ⟨key, data, hklen, hlen, by rwa [State.Supplies, hklen, hlen, and_iff_right hkey]⟩

/-- A command's response depends on its parameters, its key bytes and its data bytes alone (`44_block_codec.md`
R200). -/
theorem runCommand_resp_congr {s' t : State} (hr : r < 256) (hb : klen < 256)
    (hkey : s.key.readN 0 klen = s'.key.readN 0 klen) (hdata : s.din.readN 0 len = s'.din.readN 0 len)
    (h : runCommand dir w r klen len s = .next t) :
    ∃ t', runCommand dir w r klen len s' = .next t' ∧ t'.resp = t.resp := by
  cases hv : validLength w len with
  | false =>
    rw [runCommand_of_invalid hv] at h
    cases h
    exact ⟨_, runCommand_of_invalid hv, rfl⟩
  | true =>
    obtain ⟨key, data, rfl, rfl, hs⟩ := supplies_of_runCommand_next hb hv h
    have hs' : s'.Supplies key data := by rwa [State.Supplies, ← hkey, ← hdata]
    rw [runCommand_of_supplied hr hb hv hs] at h
    cases h
    exact ⟨_, runCommand_of_supplied hr hb hv hs', rfl⟩

end

/-- Settles O50: both steps run the command of the same fields on bytes that agree, or refuse the same word. -/
theorem onlyTheRequestIsSeen : Obligations.OnlyTheRequestIsSeen := by
  intro s₁ s₂ t₁ q husel₁ husel₂ hphase₁ hphase₂ hreq₁ hreq₂ hkey hdata hstep
  cases hdec : decodeFields q.cmd with
  | ok f =>
    obtain ⟨hr, hb⟩ := decodeFields_lt hdec
    obtain ⟨-, -, hklen⟩ := decodeFields_eq_ok_iff.1 hdec
    rw [step_eq_runCommand husel₁ hphase₁ hreq₁ hdec] at hstep
    rw [step_eq_runCommand husel₂ hphase₂ hreq₂ hdec]
    refine runCommand_resp_congr hr hb (Memory.readN_congr fun a ha => ?_) (Memory.readN_congr fun a ha => ?_) hstep
    · rw [Nat.zero_add]
      exact hkey a (hklen ▸ ha)
    · rw [Nat.zero_add]
      exact hdata a ha
  | rejected e =>
    rw [step_eq_refuseCommand husel₁ hphase₁ hreq₁ hdec, refuseCommand_eq] at hstep
    cases hstep
    rw [step_eq_refuseCommand husel₂ hphase₂ hreq₂ hdec, refuseCommand_eq]
    exact ⟨_, rfl, rfl⟩

end Sys2Proof.Machine
end

section
/-! The answers of the engine to the host: a legal request, a length that fails, a word that spells no command, and the
host's own move (`60_exceptions.md` R220 to R230). -/

namespace Sys2Proof.Machine

/-! ### The two answers to a legal request -/

/-- The function of the request has two statuses. -/
theorem answer_status (dir : Dir) (w : Width) (r : Nat) (key data : List Byte) :
    (answer dir w r key data).status = if validLength w data.length then .ok else .wrongInputSize := by
  unfold answer
  split <;> rfl

/-- It is OK on whole blocks alone (`44_block_codec.md` R190). -/
theorem answer_status_eq_ok_iff (dir : Dir) (w : Width) (r : Nat) (key data : List Byte) :
    (answer dir w r key data).status = .ok ↔ data.length % (2 * w.bytes) = 0 := by
  rw [answer_status, ← validLength_iff_blocks]
  split <;> simp [*]

theorem answer_status_eq_ok_or (dir : Dir) (w : Width) (r : Nat) (key data : List Byte) :
    (answer dir w r key data).status = .ok ∨ (answer dir w r key data).status = .wrongInputSize := by
  rw [answer_status]
  exact ite_eq_or_eq ..

/-- Settles O51: the step's response is the function of the request, which for a legal word is `answer`. -/
theorem legalRequestsAnswerOkOrWrongInputSize : Obligations.LegalRequestsAnswerOkOrWrongInputSize := by
  intro s q f key data husel hphase hreq hdec hkey hlen hs
  have hsupplied : ∀ f', decodeFields q.cmd = .ok f' → key.length = f'.b ∧ s.Supplies key data := fun f' hdec' => by
    obtain rfl : f = f' := Decoded.ok.inj (hdec.symm.trans hdec')
    exact ⟨hkey, hs⟩
  obtain ⟨t, hstep, hresp, -⟩ := responseIsAFunctionOfTheRequest s q key data husel hphase hreq hlen hsupplied
  have hanswer : answerRequest q.cmd key data = answer f.dir f.w f.r key data := by rw [answerRequest, hdec]
  rw [hanswer] at hresp
  exact ⟨t, _, hstep, hresp, answer_status_eq_ok_or .., hlen ▸ answer_status_eq_ok_iff ..⟩

/-! ### The failures -/

/-- A failing length fails one of the two tests of CDC.VALIDATE (`44_block_codec.md` R190). -/
theorem validLength_eq_false_iff (w : Width) (N : Nat) :
    validLength w N = false ↔ N % w.bytes ≠ 0 ∨ N / w.bytes % 2 ≠ 0 := by
  rw [← Bool.not_eq_true, validLength_iff, not_and_or]

/-- What statements say of a response holds of the answered state; the working state they leave open. -/
theorem State.answeredBy_answered (s : State) (p : Response) (dout : Memory) :
    s.AnsweredBy (s.answered p dout) p dout := ⟨rfl, rfl, rfl, rfl, rfl, rfl, rfl⟩

/-- Settles O39: the validation comes before the key and the data are read. -/
theorem commandRaisesWrongInputSize : Obligations.CommandRaisesWrongInputSize := by
  intro dir w r klen len s hfails
  rw [exec_command, runCommand_of_invalid ((validLength_eq_false_iff w len).2 hfails)]
  exact ⟨_, rfl, s.answeredBy_answered _ _⟩

/-- Settles O40: a word with one of the three faults is not taken apart, so the engine refuses it. -/
theorem illegalWordAnswer : Obligations.IllegalWordAnswer := by
  intro s q husel hphase hreq hillegal
  rw [step_eq_refuseCommand husel hphase hreq (decodeFields_rejected_of hillegal), refuseCommand_eq]
  exact ⟨_, rfl, s.takeRequest.answeredBy_answered _ _⟩

/-! ### What the host can ask -/

@[simp] theorem isCommand_command (dir : Dir) (w : Width) (r klen len : Nat) :
    isCommand (Instr.command dir w r klen len) = true := by
  cases dir <;> cases w <;> rfl

/-- The host has no move while a request waits or a command runs (`70_reset_and_hazards.md` R259). -/
theorem present_eq_none {s : State} (h : s.req ≠ none ∨ s.phase ≠ .idle) (q : Request) (key data : List Byte) :
    present q key data s = none := if_neg (not_and_or.2 h)

theorem State.withRequest_supplies (s : State) (q : Request) (key data : List Byte) :
    (s.withRequest q key data).Supplies key data := ⟨Memory.readN_ofBytes key, Memory.readN_ofBytes data⟩

/-- Settles O7: a word decodes through its fields to a command, and `present` tests both registers. -/
theorem hostIssuesOnlyTheTenCommands : Obligations.HostIssuesOnlyTheTenCommands := by
  refine ⟨fun cmd len i hdec => ?_, fun s q key data => ⟨fun hbusy => present_eq_none hbusy q key data,
    fun hreq hphase => ⟨_, present_some hreq hphase q key data, s.withRequest_supplies q key data, rfl⟩⟩⟩
  obtain ⟨f, -, rfl⟩ := decodeCommand_eq_ok_iff.1 hdec
  exact ⟨isCommand_command .., _, _, _, _, rfl⟩

end Sys2Proof.Machine
end

section
/-! The machine right after reset, and the stops of a command whose bytes the host has not supplied
(`70_reset_and_hazards.md` R250, R253). -/

namespace Sys2Proof.Machine

/-! ### Reset -/

/-- Settles O58: the buffers are empty at reset, and there is no response. -/
theorem resetHasTheInvariant : Obligations.ResetHasTheInvariant where
  keyWf := List.Pairwise.nil
  dinWf := List.Pairwise.nil
  doutWf := List.Pairwise.nil
  noBytesOnFailure := fun _ hresp => nomatch hresp

/-- Settles O59: at reset no unit code is selected and no request waits. -/
theorem resetIsIdle : Obligations.ResetIsIdle :=
  ⟨rfl, rfl, rfl, step_eq_next_self_of_waiting rfl rfl rfl⟩

/-! ### Bytes that are not supplied -/

/-- Settles O41: with valid lengths the command reads the key bytes, and then the data bytes. -/
theorem unsuppliedByteStops : Obligations.UnsuppliedByteStops := by
  intro dir w r klen len s hklen hwhole heven
  have hb : klen < 256 := Nat.lt_succ_of_le hklen
  have hv : validLength w len = true := (validLength_iff w len).2 ⟨hwhole, heven⟩
  rw [exec_command]
  exact ⟨fun hkey => runCommand_of_key_absent hb hv hkey,
    fun _ hkey hdata => runCommand_of_data_absent hb hv hkey hdata⟩

end Sys2Proof.Machine
end
